-- ==== Sys2Proof/Word.lean ====
section
/-! DEFINITION. The word types of the framing core: bytes (00_scope.md R12), the 12-bit command word
(30_encoding.md R80) and the timeout operand of SEND (00_scope.md R9, TIMEOUT). -/

namespace Sys2Proof

/-- An unsigned 8-bit value 0..255, the document's `u8` (R12). -/
abbrev Byte := BitVec 8

/-- A command word `cmd[11:0]` (R80). -/
abbrev CmdWord := BitVec 12

/-- A value of the parameter type TIMEOUT (R9). The core passes it to the Sink unchanged and never
interprets it (R136), so the model knows of a timeout only which one it is.
DESIGN CHOICE, log entry 3: timeouts are told apart by a number. -/
structure Timeout where
  token : Nat
  deriving DecidableEq, Repr, Inhabited

end Sys2Proof
end

