-- ==== Sys2Proof/Syntax.lean ====
section
/-! DEFINITION. The operations of the framing core, one constructor for each row of
spec/opcode_table.json (30_encoding.md R80), each with the operands the table of R80 gives it: the
immediate byte of the command word, or the values passed beside the word (R81). A byte list may have
any length (R81), and every byte is legal, so every term of this type is a well-formed operation;
what can be ill-formed is a raw command word (WellFormed.lean). -/

namespace Sys2Proof

inductive Instr where
  /-- RB_WRITE: the Producer delivers the byte `b` (R101). -/
  | rbWrite (b : Byte)
  /-- RB_READ (R105). -/
  | rbRead
  /-- RB_AVAILABLE (R108). -/
  | rbAvailable
  /-- CHECKSUM of a span (R120). -/
  | checksum (span : List Byte)
  /-- ENCODE a payload (R130). -/
  | encode (payload : List Byte)
  /-- SEND a payload with a timeout, first step (R135, R136). -/
  | send (payload : List Byte) (timeout : Timeout)
  /-- PARSE_STEP on the byte `b` (R151). -/
  | parseStep (b : Byte)
  /-- PROCESS, first step (R171, R172). -/
  | process
  /-- TAKE_FRAME (R190). -/
  | takeFrame
  /-- INIT (R195). -/
  | init
  /-- START_RX (R200). -/
  | startRx
  /-- STOP_RX (R202). -/
  | stopRx
  deriving DecidableEq, Repr

end Sys2Proof
end

