-- ==== Sys2Proof/Config.lean ====
section
/-! DEFINITION. The ports and the agents' steps (60_exceptions.md R225), the parameters of a build
(00_scope.md R9), and the free values the spec leaves open (93_implementation_defined.md I6, I9, I11,
I12). -/

namespace Sys2Proof

/-- The two ports that take command words (R80, R229). -/
inductive Port where
  | producer
  | consumer
  deriving DecidableEq, Repr, Inhabited

/-- One request on a port: the command word, and beside it the values of the side channel (R81). An
operation that has no such operand does not look at them (log entry 13). -/
structure Request where
  port    : Port
  word    : CmdWord
  /-- the span of CHECKSUM, the payload of ENCODE and SEND -/
  bytes   : List Byte
  /-- the timeout of SEND -/
  timeout : Timeout
  deriving DecidableEq, Repr, Inhabited

/-- One indivisible step of one agent (R15, R57, R225). -/
inductive AgentStep where
  /-- the Producer or the Consumer issues a command word on its port -/
  | request (r : Request)
  /-- the Consumer takes one micro-step of the PROCESS in progress (R172) -/
  | processMicro
  /-- the Sink answers the frame handed to it (R226) -/
  | sinkAnswer (ok : Bool)
  /-- the Consumer takes SEND's second step, after the Sink's answer (R136, R225) -/
  | sendComplete
  deriving DecidableEq, Repr, Inhabited

/-- The three byte arrays of the core (20_memory.md R50). -/
inductive ArrayId where
  | rbBuf
  | pBuf
  | ibBuf
  deriving DecidableEq, Repr

/-- The parameters of a build (R9), arguments of the whole machine; no operation changes them. -/
structure Config where
  /-- RB_SIZE, the number of slots of the ring -/
  rbSize        : Nat
  /-- MAX_DATA_LENGTH, the largest legal payload length -/
  maxDataLength : Nat
  /-- HEAD_BYTE, the frame start sentinel -/
  headByte      : Byte
  /-- TAIL_BYTE, the frame end sentinel -/
  tailByte      : Byte
  deriving DecidableEq, Repr

/-- RB_USABLE, the most unread bytes the ring can hold (R9). -/
def Config.rbUsable (c : Config) : Nat := c.rbSize - 1

/-- IDX_W, the width in bits of a ring index: `ceil(log2(RB_SIZE))` (R9). -/
def Config.idxWidth (c : Config) : Nat := Nat.clog 2 c.rbSize

/-- The largest frame: `4 + MAX_DATA_LENGTH` bytes (R11). -/
def Config.maxFrame (c : Config) : Nat := 4 + c.maxDataLength

/-- The parameters of the reset state. The sentinels are this hardware's (R9). RB_SIZE and
MAX_DATA_LENGTH are OPEN (R9). DESIGN CHOICE, log entry 2: 255 is the document's example, and 260 is
the least ring that keeps every such frame whole (70_reset_and_hazards.md R256). -/
def Config.ofReset : Config :=
  { rbSize := 260, maxDataLength := 255, headByte := 0xAA#8, tailByte := 0xBB#8 }

/-- FREE VALUE: what slot `slot` of the array `a` holds at power-on (R243, I12), for the draw named
by the first argument. It has no body, so no proof can see what it is. Log entry 4. -/
opaque Config.resetByte (draw : Nat) (a : ArrayId) (slot : Nat) : Byte

/-- FREE VALUE: the step of an agent that comes at the turn given, where no schedule says which
(R59, R218: which agent steps next is not fixed; R226: the Sink's answer is a draw). Log entry 6. -/
opaque Config.environment (draw turn : Nat) : AgentStep

end Sys2Proof
end

