-- ==== Sys2Proof/WellFormed.lean ====
section
/-! DEFINITION. What is legal before anything runs: the parameters of a build (00_scope.md R9, R10)
and a raw command word on a port (30_encoding.md R80, R82). The rows below are spec/opcode_table.json's
own match and mask; Decode.lean is written from the fields of R80 instead, and the two are compared
by a statement. -/

namespace Sys2Proof

/-- `RB_SIZE >= 2` (R9). -/
def Config.ringLegal (c : Config) : Bool := decide (2 ≤ c.rbSize)

/-- `MAX_DATA_LENGTH <= 255` (R9, R10). -/
def Config.lengthLegal (c : Config) : Bool := decide (c.maxDataLength ≤ 255)

/-- A legal build: the other parameters may have any value (R9). -/
def Config.legal (c : Config) : Bool := c.ringLegal && c.lengthLegal

/-- A row of spec/opcode_table.json: the words `w` with `w &&& mask = pattern`, on one port. -/
structure TableRow where
  mnemonic : String
  pattern  : CmdWord
  mask     : CmdWord
  port     : Port
  deriving DecidableEq, Repr

/-- spec/opcode_table.json, row by row. -/
def opcodeTable : List TableRow :=
  [ ⟨"RB_WRITE",     0x100#12, 0xF00#12, .producer⟩,
    ⟨"RB_READ",      0x200#12, 0xFFF#12, .consumer⟩,
    ⟨"RB_AVAILABLE", 0x300#12, 0xFFF#12, .consumer⟩,
    ⟨"CHECKSUM",     0x400#12, 0xFFF#12, .consumer⟩,
    ⟨"ENCODE",       0x500#12, 0xFFF#12, .consumer⟩,
    ⟨"SEND",         0x600#12, 0xFFF#12, .consumer⟩,
    ⟨"PARSE_STEP",   0x700#12, 0xF00#12, .consumer⟩,
    ⟨"PROCESS",      0x800#12, 0xFFF#12, .consumer⟩,
    ⟨"TAKE_FRAME",   0x900#12, 0xFFF#12, .consumer⟩,
    ⟨"INIT",         0xA00#12, 0xFFF#12, .consumer⟩,
    ⟨"START_RX",     0xB00#12, 0xFFF#12, .consumer⟩,
    ⟨"STOP_RX",      0xC00#12, 0xFFF#12, .consumer⟩ ]

/-- The word `w` on the port `p` is a word of the row. -/
def TableRow.admits (row : TableRow) (p : Port) (w : CmdWord) : Bool :=
  decide (row.port = p) && decide (w &&& row.mask = row.pattern)

/-- A request is well-formed when its word is some row's word on that row's port; R82 refuses every
other one. The side channel may hold anything (R81). -/
def Request.wellFormed (r : Request) : Bool := opcodeTable.any fun row => row.admits r.port r.word

end Sys2Proof
end

