-- ==== Sys2Proof/Decode.lean ====
section
/-! DEFINITION. The decoder of command words, total on every request and rejecting by name, and the
encoder, both written from the fields of 30_encoding.md R80 (`op = cmd[11:8]`, `imm8 = cmd[7:0]`). -/

namespace Sys2Proof

/-- Why a request has no meaning (R82). -/
inductive DecodeError where
  /-- op 0x0, 0xD, 0xE or 0xF -/
  | reservedOp
  /-- RB_WRITE on the Consumer port, or another operation on the Producer port -/
  | wrongPort
  /-- an imm8 other than 0x00 where R80 says "must be 0x00" -/
  | immediateNotZero
  deriving DecidableEq, Repr

/-- `cmd[11:8]`, the operation code (R80). -/
def cmdOp (w : CmdWord) : BitVec 4 := w.extractLsb' 8 4

/-- `cmd[7:0]`, the immediate byte (R80). -/
def cmdImm (w : CmdWord) : Byte := w.extractLsb' 0 8

/-- The command word of an operation code and an immediate byte (R80). -/
def cmdWord (op : BitVec 4) (imm : Byte) : CmdWord := op ++ imm

/-- The reserved operation codes (R82). -/
def reservedOps : List (BitVec 4) := [0x0, 0xD, 0xE, 0xF]

/-- An operation that only the port `p` takes (R82, R229). -/
def onPort (p : Port) (r : Request) (i : Instr) : Except DecodeError Instr :=
  if r.port = p then .ok i else .error .wrongPort

/-- A Consumer operation whose imm8 must be 0x00 (R80, R82). -/
def plainOp (r : Request) (i : Instr) : Except DecodeError Instr :=
  if r.port ≠ .consumer then .error .wrongPort
  else if cmdImm r.word = 0 then .ok i
  else .error .immediateNotZero

/-- The operation a request asks for (R80, R81), or the reason it is refused (R82). Where several
reasons hold, the first of reserved op, wrong port, nonzero imm8 is given (log entry 12). -/
def decode (r : Request) : Except DecodeError Instr :=
  match (cmdOp r.word).toNat with
  | 0x1 => onPort .producer r (.rbWrite (cmdImm r.word))
  | 0x2 => plainOp r .rbRead
  | 0x3 => plainOp r .rbAvailable
  | 0x4 => plainOp r (.checksum r.bytes)
  | 0x5 => plainOp r (.encode r.bytes)
  | 0x6 => plainOp r (.send r.bytes r.timeout)
  | 0x7 => onPort .consumer r (.parseStep (cmdImm r.word))
  | 0x8 => plainOp r .process
  | 0x9 => plainOp r .takeFrame
  | 0xA => plainOp r .init
  | 0xB => plainOp r .startRx
  | 0xC => plainOp r .stopRx
  | _   => .error .reservedOp

/-- What the side channel carries where an operation has no timeout operand. -/
def noTimeout : Timeout := ⟨0⟩

/-- A Consumer request with no side-channel operand. -/
def consumerWord (op : BitVec 4) (imm : Byte) : Request :=
  { port := .consumer, word := cmdWord op imm, bytes := [], timeout := noTimeout }

/-- The request that asks for an operation (R80, R81). -/
def encode : Instr → Request
  | .rbWrite b    => { port := .producer, word := cmdWord 0x1 b, bytes := [], timeout := noTimeout }
  | .rbRead       => consumerWord 0x2 0
  | .rbAvailable  => consumerWord 0x3 0
  | .checksum s   => { consumerWord 0x4 0 with bytes := s }
  | .encode p     => { consumerWord 0x5 0 with bytes := p }
  | .send p t     => { consumerWord 0x6 0 with bytes := p, timeout := t }
  | .parseStep b  => consumerWord 0x7 b
  | .process      => consumerWord 0x8 0
  | .takeFrame    => consumerWord 0x9 0
  | .init         => consumerWord 0xA 0
  | .startRx      => consumerWord 0xB 0
  | .stopRx       => consumerWord 0xC 0

/-- The operations with a byte list beside the word (R80, R81). -/
def Instr.takesBytes : Instr → Bool
  | .rbWrite _   => false
  | .rbRead      => false
  | .rbAvailable => false
  | .checksum _  => true
  | .encode _    => true
  | .send _ _    => true
  | .parseStep _ => false
  | .process     => false
  | .takeFrame   => false
  | .init        => false
  | .startRx     => false
  | .stopRx      => false

/-- The one operation with a timeout beside the word (R80, R81). -/
def Instr.takesTimeout : Instr → Bool
  | .rbWrite _   => false
  | .rbRead      => false
  | .rbAvailable => false
  | .checksum _  => false
  | .encode _    => false
  | .send _ _    => true
  | .parseStep _ => false
  | .process     => false
  | .takeFrame   => false
  | .init        => false
  | .startRx     => false
  | .stopRx      => false

/-- The port whose operation a word names: the Producer's for RB_WRITE, else the Consumer's (R80). -/
def portOfWord (w : CmdWord) : Port := if cmdOp w = 0x1 then .producer else .consumer

/-- The request that a table word stands for: the word on its own port, with an empty byte list and
no timeout beside it. A number that does not fit the 12 bits of a command word stands for the
reserved word 0x000, which is refused (log entry 15). -/
def tableRequest (w : Nat) : Request :=
  let cmd : CmdWord := if w < 4096 then BitVec.ofNat 12 w else 0
  { port := portOfWord cmd, word := cmd, bytes := [], timeout := noTimeout }

/-- What the decoder reads from a word of the opcode table, numbered as the table numbers its bits. -/
def decodeTableWord (nbits w : Nat) : Option Instr :=
  if w < 2 ^ nbits then (decode (tableRequest w)).toOption else none

end Sys2Proof
end

