-- ==== Sys2Proof/Machine/State.lean ====
section
/-! DEFINITION. The state of one instance of the core (10_state.md R20, R24, R27, R31, R34), the
reasons a step can stop (60_exceptions.md R215), what the core sends out (30_encoding.md R83, R84),
and the state after reset (10_state.md R36, 70_reset_and_hazards.md R240). -/

namespace Sys2Proof.Machine

/-- The contents of one byte array: the slots written since power-on, each with its byte, slot numbers
strictly rising. A slot that is not listed has never been written and holds the free value
`Config.resetByte` (R243, I12; log entry 4). -/
abbrev Memory := List Host.Cell

/-- The canonical form: slot numbers strictly rise. -/
abbrev Memory.wf (m : Memory) : Prop := m.Pairwise fun c d => c.1 < d.1

/-- The five parser states (43_parser.md R150). -/
inductive ParserState where
  | idle
  | headFound
  | lengthReceived
  | dataReceiving
  | frameComplete
  deriving DecidableEq, Repr

/-- `c_op`: which multi-step operation of the Consumer is in progress (R34). -/
inductive ConsumerOp where
  | none
  | inProcess
  | inSend
  deriving DecidableEq, Repr

/-- The status codes of ENCODE, SEND and TAKE_FRAME by name (R83); their numbers are
`Status.code` in Operands.lean. -/
inductive Status where
  | ok
  | payloadTooLarge
  | transmitFailed
  | noFrameAvailable
  deriving DecidableEq, Repr

/-- What the core sends out: a response to the Consumer for each operation that has one (R80), the
frame handed to the Sink (R136, R226), and the requests to the transport (R200, R202). -/
inductive Output where
  /-- RB_READ: a valid bit and a data byte, data 0x00 when the ring was empty (R84) -/
  | rbRead (valid : Bool) (data : Byte)
  /-- RB_AVAILABLE: 1 when the ring is not empty (R84) -/
  | rbAvailable (nonEmpty : Bool)
  /-- CHECKSUM: one byte (R120) -/
  | checksum (sum : Byte)
  /-- ENCODE: a status and, when it is OK, the frame (R130) -/
  | encode (status : Status) (frame : Option (List Byte))
  /-- SEND: a status (R135) -/
  | send (status : Status)
  /-- PARSE_STEP: 1 for FrameReady, 0 for None (R84) -/
  | parseStep (frameReady : Bool)
  /-- PROCESS: 1 for FrameReady, 0 for NoNewFrame (R84) -/
  | process (frameReady : Bool)
  /-- TAKE_FRAME: a status, the payload and its length (R190) -/
  | takeFrame (status : Status) (payload : List Byte) (length : Byte)
  /-- the frame and the timeout handed to the Sink (R136) -/
  | handToSink (frame : List Byte) (timeout : Timeout)
  /-- START_RX's request to the transport (R200) -/
  | startRequest
  /-- STOP_RX's request to the transport (R202) -/
  | stopRequest
  deriving DecidableEq, Repr

/-- One instance of the core. -/
structure State where
  /-- the parameters of the build (R9); the MODEL's own field, no operation changes it (log entry 1) -/
  cfg        : Config
  /-- `rb_buf`, the ring's storage (R24) -/
  rbBuf      : Memory
  /-- `rb_head`, the next write slot (R24) -/
  rbHead     : Nat
  /-- `rb_tail`, the next read slot (R24) -/
  rbTail     : Nat
  /-- `p_state`, three bits (R27), encoded as R77 says -/
  pState     : BitVec 3
  /-- `p_expected`, the frame's LEN byte (R27) -/
  pExpected  : Byte
  /-- `p_received`, the payload bytes stored so far (R27) -/
  pReceived  : Byte
  /-- `p_sum`, the running checksum (R27) -/
  pSum       : Byte
  /-- `p_cs_ok`, the checksum byte has been accepted (R27, R28) -/
  pCsOk      : Bool
  /-- `p_buf`, the partial payload (R27) -/
  pBuf       : Memory
  /-- `ib_ready`, a frame is pending (R31) -/
  ibReady    : Bool
  /-- `ib_len`, the pending frame's payload length (R31) -/
  ibLen      : Byte
  /-- `ib_buf`, the pending frame's payload (R31) -/
  ibBuf      : Memory
  /-- `c_op` (R34) -/
  cOp        : ConsumerOp
  /-- `c_send`, the frame handed to the Sink with its timeout (R34) -/
  cSend      : Option (List Byte × Timeout)
  /-- the Sink's answer that SEND's second step has not taken yet; the Sink agent's, the MODEL's own
  field (R137, R226; log entry 9) -/
  sinkAnswer : Option Bool
  /-- what the core has sent out, oldest first; the MODEL's own field (log entry 8) -/
  outputs    : List Output
  /-- the agents' steps that come next, in order; the MODEL's own field (R59; log entry 6) -/
  schedule   : List AgentStep
  /-- which draw of the free values this instance has; the MODEL's own field (log entry 5) -/
  draw       : Nat
  /-- the turn of the environment's next draw; the MODEL's own field (log entry 5) -/
  turn       : Nat
  deriving DecidableEq, Repr

/-- Why the machine stops with a fault (R215 (b)); no rule reaches one of these from reset (R29, R50). -/
inductive Fault where
  /-- PARSE_STEP, PROCESS or a micro-step finds `p_state` 5, 6 or 7 (R77, I21). Safe: the spec says
  that a model that finds one faults. -/
  | parserStateIllegal
  /-- RB_WRITE, RB_READ, RB_AVAILABLE or a micro-step finds a ring index at or above RB_SIZE (I22).
  Safe: the spec says fault. -/
  | ringIndexOutOfRange
  /-- PARSE_STEP, a micro-step or TAKE_FRAME would touch a slot of `p_buf` or `ib_buf` at or above
  MAX_DATA_LENGTH (R50, I22). Safe: the spec says fault. -/
  | slotOutOfRange
  deriving DecidableEq, Repr

/-- Why a step has no meaning (R82, R215 (a)). -/
inductive Refusal where
  /-- raised by exec alone, for an operation that has no meaning in this model yet. Safe. -/
  | notModelled (mnemonic : String)
  /-- every operation of a build with RB_SIZE < 2 or MAX_DATA_LENGTH > 255 (R10, I23). Safe. -/
  | illegalConfig
  /-- a command word with op 0x0, 0xD, 0xE or 0xF (R82, I17). Safe. -/
  | reservedOp
  /-- a command word with a nonzero imm8 that must be 0x00 (R82, I18). Safe. -/
  | immediateNotZero
  /-- RB_WRITE on the Consumer port, or another operation on the Producer port (R82, I19). Safe. -/
  | wrongPort
  /-- a Consumer operation while `c_op` is not None (R227, I20). Safe. -/
  | consumerBusy
  /-- a PROCESS micro-step while no PROCESS is in progress (R34, R172). Safe. -/
  | processNotInProgress
  /-- an answer of the Sink while no frame awaits one (R226). Safe. -/
  | noFrameForSink
  /-- SEND's second step before the Sink has answered (R137). Safe. -/
  | sendNotAnswered
  deriving DecidableEq, Repr

/-- The reset state of a build, for one draw of its free values (R36, R240). The arrays list no slot. -/
def State.resetWith (c : Config) (draw : Nat) : State :=
  { cfg := c
    rbBuf := [], rbHead := 0, rbTail := 0
    pState := 0, pExpected := 0, pReceived := 0, pSum := 0, pCsOk := false, pBuf := []
    ibReady := false, ibLen := 0, ibBuf := []
    cOp := .none, cSend := none
    sinkAnswer := none, outputs := [], schedule := [], draw := draw, turn := 0 }

/-- The machine right after reset (R36, R240), with the parameters of log entry 2. -/
def State.reset : State := State.resetWith Config.ofReset 0

end Sys2Proof.Machine
end

