-- ==== Sys2Proof/Machine/Operands.lean ====
section
/-! DEFINITION. The forms of the operands and results: the encodings of the parser state and of the
status codes (30_encoding.md R77, R83), slot reads and writes (20_memory.md R50), ring indices
(30_encoding.md R79) and payload lengths (42_encoder.md R131). -/

namespace Sys2Proof

/-- The number of slots of an array (R24, R27, R31). -/
def Config.slots (c : Config) : ArrayId → Nat
  | .rbBuf => c.rbSize
  | .pBuf  => c.maxDataLength
  | .ibBuf => c.maxDataLength

/-- The ring index after `i`: modulo RB_SIZE, not modulo a power of two (R79). -/
def Config.ringNext (c : Config) (i : Nat) : Nat := (i + 1) % c.rbSize

/-- A payload that can be encoded: its full length, a natural number, is at most MAX_DATA_LENGTH (R131). -/
def Config.fits (c : Config) (payload : List Byte) : Bool := decide (payload.length ≤ c.maxDataLength)

end Sys2Proof

namespace Sys2Proof.Machine

/-- `p_state`'s encoding (R77). -/
def ParserState.code : ParserState → BitVec 3
  | .idle           => 0
  | .headFound      => 1
  | .lengthReceived => 2
  | .dataReceiving  => 3
  | .frameComplete  => 4

/-- The parser state of a `p_state` value; 5, 6 and 7 are none (R77). -/
def ParserState.ofCode (v : BitVec 3) : Option ParserState :=
  match v.toNat with
  | 0 => some .idle
  | 1 => some .headFound
  | 2 => some .lengthReceived
  | 3 => some .dataReceiving
  | 4 => some .frameComplete
  | _ => none

/-- The numbers of the status codes (R83). -/
def Status.code : Status → Byte
  | .ok               => 0x00
  | .payloadTooLarge  => 0x01
  | .transmitFailed   => 0x02
  | .noFrameAvailable => 0x03

/-- The byte of a slot, none when the slot has not been written since power-on. -/
def Memory.lookup : Memory → Nat → Option Byte
  | [], _ => none
  | (slot, v) :: m, i => if i = slot then some v else lookup m i

/-- `MemWrite(A, i, v)` on the listed slots: slot `i` then holds `v`, and nothing else changes (R50). -/
def Memory.set : Memory → Nat → Byte → Memory
  | [], i, v => [(i, v)]
  | (slot, w) :: m, i, v =>
    if i < slot then (i, v) :: (slot, w) :: m
    else if i = slot then (i, v) :: m
    else (slot, w) :: set m i v

/-- The listed slots of one of the three arrays (R50). -/
def State.array (s : State) : ArrayId → Memory
  | .rbBuf => s.rbBuf
  | .pBuf  => s.pBuf
  | .ibBuf => s.ibBuf

/-- `MemRead(A, i)`: the byte in slot `i` (R50); a slot not written since power-on holds its free
value (R243). -/
def State.slot (s : State) (a : ArrayId) (i : Nat) : Byte :=
  ((s.array a).lookup i).getD (Config.resetByte s.draw a i)

/-- The slots `0 .. n-1` of an array, in order. -/
def State.slots (s : State) (a : ArrayId) (n : Nat) : List Byte := (List.range n).map (s.slot a)

/-- `rb_count`, the number of unread bytes (R25). -/
def State.ringCount (s : State) : Nat := (s.rbHead + s.cfg.rbSize - s.rbTail) % s.cfg.rbSize

/-- The slot of the unread byte `k`, counted from the oldest (R25). -/
def State.unreadSlot (s : State) (k : Nat) : Nat := (s.rbTail + k) % s.cfg.rbSize

/-- The unread bytes, oldest first (R25). -/
def State.unread (s : State) : List Byte :=
  (List.range s.ringCount).map fun k => s.slot .rbBuf (s.unreadSlot k)

/-- Both ring indices are below RB_SIZE (R24). -/
def State.ringIndicesInRange (s : State) : Bool :=
  decide (s.rbHead < s.cfg.rbSize) && decide (s.rbTail < s.cfg.rbSize)

/-- The LEN byte of a payload (R71, R132). -/
def lenByte (payload : List Byte) : Byte := BitVec.ofNat 8 payload.length

end Sys2Proof.Machine
end

