-- ==== Sys2Proof/Machine/Flags.lean ====
section
/-! DEFINITION. The flags: the conditions the ring's indices give (10_state.md R25, 40_ring_buffer.md
R102), the conditions PARSE_STEP branches on (43_parser.md R151), and every write of the two status
flags `p_cs_ok` (10_state.md R28) and `ib_ready` (R32). -/

namespace Sys2Proof

/-- The LEN byte is legal (R154): unsigned `b <= MAX_DATA_LENGTH`. -/
def Config.lenLegal (c : Config) (b : Byte) : Bool := decide (b.toNat ≤ c.maxDataLength)

end Sys2Proof

namespace Sys2Proof.Machine

/-- The ring is empty exactly when `rb_head == rb_tail` (R25). -/
def State.ringEmpty (s : State) : Bool := decide (s.rbHead = s.rbTail)

/-- The ring is full: `head` would equal `tail` after a write (R102). -/
def State.ringFull (s : State) : Bool := decide (s.cfg.ringNext s.rbHead = s.rbTail)

/-- An 8-bit additive checksum: all bytes summed, truncated to 8 bits (R121). -/
def checksum (span : List Byte) : Byte := span.foldl (· + ·) 0

/-- A payload byte is still expected (R159). -/
def State.payloadOpen (s : State) : Bool := decide (s.pReceived < s.pExpected)

/-- `p_cs_ok <- 1` (R156, R160). -/
def State.acceptChecksum (s : State) : State := { s with pCsOk := true }

/-- `p_state <- Idle; p_cs_ok <- 0`, and nothing else: the resync (R163). -/
def State.resync (s : State) : State := { s with pState := ParserState.idle.code, pCsOk := false }

/-- `ib_ready <- 1`, with the length of the frame (R161). -/
def State.setReady (s : State) (len : Byte) : State := { s with ibLen := len, ibReady := true }

/-- `ib_ready <- 0` (R191). -/
def State.clearReady (s : State) : State := { s with ibReady := false }

end Sys2Proof.Machine
end

