-- ==== Sys2Proof/Machine/Ops.lean ====
section
/-! DEFINITION. The shared operations: answering an agent and reporting an error
(00_scope.md R14, 60_exceptions.md R210), the two ports' guards (R227, 30_encoding.md R82), the ring
(40_ring_buffer.md R102, R106), the frame (30_encoding.md R70, 42_encoder.md R132) and the copy into
the Inbox (43_parser.md R161). There is no trap entry and no trap return in this core (60_exceptions.md
R219, R220): `raise` is the whole of what an error does. -/

namespace Sys2Proof.Machine

/-- The result of one step of the core. -/
abbrev Result := Host.Outcome State Fault Refusal

/-- The core sends `o` out. -/
def State.emit (s : State) (o : Output) : State := { s with outputs := s.outputs ++ [o] }

/-- `respond(x)`: the operation ends and returns `x` to the issuing agent (R14). -/
def respond (o : Output) (s : State) : Result := .next (s.emit o)

/-- `raise <Error>`: the operation ends and returns the error's status; nothing is saved, no control
is transferred, and the state is the one before the operation (R14, R210, R219). `answer` puts the
status into the operation's response. -/
def raise (answer : Status → Output) (error : Status) (s : State) : Result := respond (answer error) s

/-- A step of an operation that may fault. -/
def ofExcept : Except Fault State → Result
  | .ok s    => .next s
  | .error f => .fault f

/-- The refusal that a decoding error stands for (R82). -/
def refusalOf : DecodeError → Refusal
  | .reservedOp       => .reservedOp
  | .wrongPort        => .wrongPort
  | .immediateNotZero => .immediateNotZero

/-- A build with illegal parameters is refused, whatever it is asked (R10, R244, I23). -/
def inLegalBuild (s : State) (k : Result) : Result :=
  if s.cfg.legal then k else .refused .illegalConfig

/-- The Producer is never blocked (R227). -/
def onProducerPort (s : State) (k : Result) : Result := inLegalBuild s k

/-- The Consumer issues one operation at a time: none while `c_op ≠ None` (R227, I20). -/
def onConsumerPort (s : State) (k : Result) : Result :=
  inLegalBuild s (if s.cOp = .none then k else .refused .consumerBusy)

/-- RB_WRITE's writes (R102). -/
def State.ringPut (s : State) (b : Byte) : State :=
  { s with
    rbBuf  := s.rbBuf.set s.rbHead b
    rbTail := if s.ringFull then s.cfg.ringNext s.rbTail else s.rbTail
    rbHead := s.cfg.ringNext s.rbHead }

/-- RB_READ's write when a byte is there (R106). -/
def State.ringAdvance (s : State) : State := { s with rbTail := s.cfg.ringNext s.rbTail }

/-- RB_WRITE (R102); an index out of range faults (I22). -/
def ringWrite (b : Byte) (s : State) : Except Fault State :=
  if s.ringIndicesInRange then .ok (s.ringPut b) else .error .ringIndexOutOfRange

/-- RB_READ (R106): the oldest byte, consumed, or none and no state change; an index out of range
faults (I22). -/
def ringRead (s : State) : Except Fault (Option Byte × State) :=
  if s.ringIndicesInRange then
    if s.ringEmpty then .ok (none, s)
    else .ok (some (s.slot .rbBuf s.rbTail), s.ringAdvance)
  else .error .ringIndexOutOfRange

/-- RB_READ's response as a valid bit and a data byte (R84). -/
def readResponse : Option Byte → Output
  | none   => .rbRead false 0x00
  | some b => .rbRead true b

/-- The frame of a payload: `[HEAD_BYTE, L] ++ p ++ [cs, TAIL_BYTE]` (R70, R132). -/
def encodeFrame (c : Config) (p : List Byte) : List Byte :=
  [c.headByte, lenByte p] ++ p ++ [checksum (lenByte p :: p), c.tailByte]

/-- A payload byte is stored in slot `n` of `p_buf`, counted and summed, and the parser is in
DataReceiving (R158 with `n = 0`, R159 with `n = p_received`). A slot out of range faults (I22). -/
def storePayload (n : Byte) (b : Byte) (s : State) : Except Fault State :=
  if n.toNat < s.cfg.maxDataLength then
    .ok { s with
          pBuf      := s.pBuf.set n.toNat b
          pReceived := n + 1
          pSum      := s.pSum + b
          pState    := ParserState.dataReceiving.code }
  else .error .slotOutOfRange

/-- The slots `0 .. n-1` filled from `src`, in order (R161's loop). -/
def Memory.fill (src : Nat → Byte) : Nat → Memory → Memory
  | 0, m     => m
  | n + 1, m => (fill src n m).set n (src n)

/-- Publication (R161): the payload is copied into the Inbox, the frame is pending, and the parser
stalls in FrameComplete. A slot out of range faults (I22). -/
def publish (s : State) : Except Fault State :=
  if s.pExpected.toNat ≤ s.cfg.maxDataLength then
    .ok (State.setReady
          { s with
            ibBuf  := s.ibBuf.fill (s.slot .pBuf) s.pExpected.toNat
            pState := ParserState.frameComplete.code
            pCsOk  := false }
          s.pExpected)
  else .error .slotOutOfRange

/-- Every register at its reset value; the arrays keep their contents (R196). -/
def State.initRegisters (s : State) : State :=
  { s with
    rbHead := 0, rbTail := 0
    pState := ParserState.idle.code, pExpected := 0, pReceived := 0, pSum := 0, pCsOk := false
    ibReady := false, ibLen := 0 }

end Sys2Proof.Machine
end

