-- ==== Sys2Proof/Machine/Checksum.lean ====
section
/-! DEFINITION. CHECKSUM (41_checksum.md). -/

namespace Sys2Proof.Machine

/-- CHECKSUM (R120, R121): a pure function of its span. -/
def execChecksum (span : List Byte) (s : State) : Result :=
  onConsumerPort s (respond (.checksum (checksum span)) s)

end Sys2Proof.Machine
end

