-- ==== Sys2Proof/Machine/Control.lean ====
section
/-! DEFINITION. The control operations INIT, START_RX and STOP_RX (44_inbox_and_control.md R195 to
R203). -/

namespace Sys2Proof.Machine

/-- INIT (R195, R196): no response. -/
def execInit (s : State) : Result := onConsumerPort s (.next s.initRegisters)

/-- START_RX (R200): a start request to the transport, and no core state changes. -/
def execStartRx (s : State) : Result := onConsumerPort s (respond .startRequest s)

/-- STOP_RX (R202): a stop request to the transport, and no core state changes. -/
def execStopRx (s : State) : Result := onConsumerPort s (respond .stopRequest s)

end Sys2Proof.Machine
end

