-- ==== Sys2Proof/Machine/Encoder.lean ====
section
/-! DEFINITION. The frame encoder's operations: ENCODE and the two steps of SEND, with the Sink's
answer between them (42_encoder.md, 60_exceptions.md R226). -/

namespace Sys2Proof.Machine

/-- ENCODE (R130 to R132): the length check comes first (R131, R217). -/
def execEncode (payload : List Byte) (s : State) : Result :=
  onConsumerPort s
    (if s.cfg.fits payload then respond (.encode .ok (some (encodeFrame s.cfg payload))) s
     else raise (fun st => .encode st none) .payloadTooLarge s)

/-- SEND, step 1 (R136): the frame is handed to the Sink with the timeout, or PayloadTooLarge. -/
def execSend (payload : List Byte) (timeout : Timeout) (s : State) : Result :=
  onConsumerPort s
    (if s.cfg.fits payload then
       .next (State.emit
         { s with cSend := some (encodeFrame s.cfg payload, timeout), cOp := .inSend }
         (.handToSink (encodeFrame s.cfg payload) timeout))
     else raise .send .payloadTooLarge s)

/-- The Sink's one step for each frame handed to it: it answers, and touches no core state (R226). -/
def sinkAnswers (ok : Bool) (s : State) : Result :=
  inLegalBuild s
    (if s.cOp = .inSend ∧ s.cSend.isSome = true ∧ s.sinkAnswer = none then
       .next { s with sinkAnswer := some ok }
     else .refused .noFrameForSink)

/-- The status SEND ends with (R136). -/
def sendStatus (ok : Bool) : Status := if ok then .ok else .transmitFailed

/-- SEND, step 2 (R136's SEND_COMPLETE), enabled by the Sink's answer (R137, R226). -/
def sendComplete (s : State) : Result :=
  inLegalBuild s
    (if s.cOp = .inSend then
       match s.sinkAnswer with
       | some ok => respond (.send (sendStatus ok)) { s with cSend := none, cOp := .none, sinkAnswer := none }
       | none    => .refused .sendNotAnswered
     else .refused .sendNotAnswered)

end Sys2Proof.Machine
end

