-- ==== Sys2Proof/Machine/Inbox.lean ====
section
/-! DEFINITION. TAKE_FRAME (44_inbox_and_control.md R190 to R192). -/

namespace Sys2Proof.Machine

/-- The writes of a take that returns a frame (R191). -/
def State.takeInbox (s : State) : State :=
  { s.clearReady with pState := ParserState.idle.code, pCsOk := false }

/-- TAKE_FRAME (R191): the pending frame's payload and length, with the parser back in Idle; or
NoFrameAvailable with an empty list and length 0x00, and no state change. An `ib_len` above
MAX_DATA_LENGTH would read a slot out of range and faults (I22). -/
def execTakeFrame (s : State) : Result :=
  onConsumerPort s
    (if s.ibReady = false then raise (fun st => .takeFrame st [] 0x00) .noFrameAvailable s
     else if s.ibLen.toNat ≤ s.cfg.maxDataLength then
       respond (.takeFrame .ok (s.slots .ibBuf s.ibLen.toNat) s.ibLen) s.takeInbox
     else .fault .slotOutOfRange)

end Sys2Proof.Machine
end

