-- ==== Sys2Proof/Machine/Parser.lean ====
section
/-! DEFINITION. The frame parser: PARSE_STEP, and PROCESS with its micro-steps (43_parser.md). -/

namespace Sys2Proof.Machine

/-- No frame is completed by this byte (R166). -/
def noFrame (s : State) : Except Fault (Bool × State) := .ok (false, s)

/-- Idle (R152, R153). -/
def parseIdle (b : Byte) (s : State) : Except Fault (Bool × State) :=
  if b = s.cfg.headByte then
    noFrame { s with pState := ParserState.headFound.code, pReceived := 0, pCsOk := false }
  else noFrame s

/-- HeadFound (R154, R155). -/
def parseHeadFound (b : Byte) (s : State) : Except Fault (Bool × State) :=
  if s.cfg.lenLegal b then
    noFrame { s with pState := ParserState.lengthReceived.code, pExpected := b, pSum := b }
  else noFrame s.resync

/-- LengthReceived (R156, R157, R158). -/
def parseLengthReceived (b : Byte) (s : State) : Except Fault (Bool × State) :=
  if s.pExpected = 0 then
    if b = checksum [s.pExpected] then
      noFrame { s.acceptChecksum with pState := ParserState.dataReceiving.code }
    else noFrame s.resync
  else (storePayload 0 b s).map (false, ·)

/-- DataReceiving (R159, R160, R162; R161, R164 once the checksum is accepted). -/
def parseDataReceiving (b : Byte) (s : State) : Except Fault (Bool × State) :=
  if s.pCsOk = false then
    if s.payloadOpen then (storePayload s.pReceived b s).map (false, ·)
    else if b = s.pSum then noFrame s.acceptChecksum
    else noFrame s.resync
  else if b = s.cfg.tailByte then (publish s).map (true, ·)
  else noFrame s.resync

/-- One transition on one byte, as R151's case table says; true when a frame is ready (R166).
FrameComplete ignores the byte (R165); `p_state` 5, 6 or 7 faults (R77). -/
def parseByte (b : Byte) (s : State) : Except Fault (Bool × State) :=
  match ParserState.ofCode s.pState with
  | some .idle           => parseIdle b s
  | some .headFound      => parseHeadFound b s
  | some .lengthReceived => parseLengthReceived b s
  | some .dataReceiving  => parseDataReceiving b s
  | some .frameComplete  => noFrame s
  | none                 => .error .parserStateIllegal

/-- PARSE_STEP on the Consumer port, for test (R151). -/
def execParseStep (b : Byte) (s : State) : Result :=
  onConsumerPort s
    (match parseByte b s with
     | .ok (ready, t) => respond (.parseStep ready) t
     | .error f       => .fault f)

/-- PROCESS, first step (R172): while a frame is pending it answers NoNewFrame and reads nothing
(R175); else the micro-steps are enabled. `p_state` 5, 6 or 7 faults (R77). -/
def execProcess (s : State) : Result :=
  onConsumerPort s
    (match ParserState.ofCode s.pState with
     | some .frameComplete  => respond (.process false) s
     | some .idle           => .next { s with cOp := .inProcess }
     | some .headFound      => .next { s with cOp := .inProcess }
     | some .lengthReceived => .next { s with cOp := .inProcess }
     | some .dataReceiving  => .next { s with cOp := .inProcess }
     | none                 => .fault .parserStateIllegal)

/-- PROCESS ends and answers (R172). -/
def endProcess (ready : Bool) (s : State) : Result :=
  respond (.process ready) { s with cOp := .none }

/-- One micro-step of PROCESS: one RB_READ and, if a byte came, one PARSE_STEP (R172, R173). -/
def processMicro (s : State) : Result :=
  inLegalBuild s
    (if s.cOp = .inProcess then
       match ringRead s with
       | .error f        => .fault f
       | .ok (none, t)   => endProcess false t
       | .ok (some b, t) =>
         match parseByte b t with
         | .error f        => .fault f
         | .ok (true, u)   => endProcess true u
         | .ok (false, u)  => .next u
     else .refused .processNotInProgress)

end Sys2Proof.Machine
end

