-- ==== Sys2Proof/Machine/RingBuffer.lean ====
section
/-! DEFINITION. The ring buffer's operations: RB_WRITE, RB_READ and RB_AVAILABLE (40_ring_buffer.md). -/

namespace Sys2Proof.Machine

/-- RB_WRITE (R101, R102): no response, no error, at any time. -/
def execRbWrite (b : Byte) (s : State) : Result := onProducerPort s (ofExcept (ringWrite b s))

/-- RB_READ (R105, R106): `None` or `Some b`. -/
def execRbRead (s : State) : Result :=
  onConsumerPort s
    (match ringRead s with
     | .ok (r, t) => respond (readResponse r) t
     | .error f   => .fault f)

/-- RB_AVAILABLE (R108): whether the ring is not empty, without consuming. -/
def execRbAvailable (s : State) : Result :=
  onConsumerPort s
    (if s.ringIndicesInRange then respond (.rbAvailable (!s.ringEmpty)) s
     else .fault .ringIndexOutOfRange)

end Sys2Proof.Machine
end

