-- ==== Sys2Proof/Machine/Dispatch.lean ====
section
/-! DEFINITION. One arm per operation: the meaning of each (30_encoding.md R80). -/

namespace Sys2Proof.Machine

def exec (i : Instr) (s : State) : Host.Outcome State Fault Refusal :=
  match i with
  | .rbWrite b => Sys2Proof.Machine.execRbWrite b s
  | .rbRead => Sys2Proof.Machine.execRbRead s
  | .rbAvailable => Sys2Proof.Machine.execRbAvailable s
  | .checksum span => Sys2Proof.Machine.execChecksum span s
  | .encode payload => Sys2Proof.Machine.execEncode payload s
  | .send payload timeout => Sys2Proof.Machine.execSend payload timeout s
  | .parseStep b => Sys2Proof.Machine.execParseStep b s
  | .process => Sys2Proof.Machine.execProcess s
  | .takeFrame => Sys2Proof.Machine.execTakeFrame s
  | .init => Sys2Proof.Machine.execInit s
  | .startRx => Sys2Proof.Machine.execStartRx s
  | .stopRx => Sys2Proof.Machine.execStopRx s

end Sys2Proof.Machine
end

