-- ==== Sys2Proof/Machine/Agents.lean ====
section
/-! DEFINITION. The agents' steps (60_exceptions.md R225) and where the next one comes from
(20_memory.md R59). -/

namespace Sys2Proof.Machine

/-- One step of one agent. A request is decoded; one that has no meaning is refused (R82, R215). -/
def agentStep (a : AgentStep) (s : State) : Result :=
  match a with
  | .request r =>
    match decode r with
    | .ok i    => exec i s
    | .error e => .refused (refusalOf e)
  | .processMicro  => processMicro s
  | .sinkAnswer ok => sinkAnswers ok s
  | .sendComplete  => sendComplete s

/-- The step of the schedule's next entry, which is then gone from it. -/
def scheduledStep (a : AgentStep) (rest : List AgentStep) (s : State) : Result :=
  agentStep a { s with schedule := rest }

/-- The environment's draw for this turn is used up. -/
def State.nextTurn (s : State) : State := { s with turn := s.turn + 1 }

/-- With no schedule the environment's draw says which step comes (R59, R218, R226). A draw that
is not enabled stands for no step of any agent: the core is idle and all state persists (R235; log
entry 7). An illegal build stays refused. -/
def drawnStep (s : State) : Result :=
  match agentStep (Config.environment s.draw s.turn) s.nextTurn with
  | .next t    => .next t
  | .fault f   => .fault f
  | .refused _ => inLegalBuild s (.next s.nextTurn)

/-- A word of the opcode table put first in the schedule, on its own port (log entry 15). -/
def State.scheduleWord (s : State) (w : Nat) : State :=
  { s with schedule := .request (tableRequest w) :: s.schedule }

end Sys2Proof.Machine
end

