-- ==== Sys2Proof/Machine/Step.lean ====
section
/-! DEFINITION. One step of the machine: one indivisible step of one agent, in the total order of
20_memory.md R59. -/

namespace Sys2Proof.Machine

def step (s : State) : Host.Outcome State Fault Refusal :=
  match s.schedule with
  | a :: rest => scheduledStep a rest s
  | []        => drawnStep s

/-- The state whose next step runs the operation of a table word (log entry 15). The core has no
program memory (R22): an agent issues the word on its port. -/
def State.withFetchWord (s : State) (_nbits w : Nat) : State := s.scheduleWord w

end Sys2Proof.Machine
end

