-- ==== Sys2Proof/Machine/Instances.lean ====
section
/-! DEFINITION. Several instances of the core, each with its own copy of all state (10_state.md R23,
60_exceptions.md R232): a step is a step of one of them. -/

namespace Sys2Proof.Machine

/-- The instance at place `k` takes one step; a list of instances is a list of states. There is no
step where there is no instance. -/
def stepInstance : Nat → List State → Option (Host.Outcome (List State) Fault Refusal)
  | _, [] => none
  | 0, s :: rest =>
    some (match step s with
      | .next t    => .next (t :: rest)
      | .fault f   => .fault f
      | .refused r => .refused r)
  | k + 1, s :: rest =>
    match stepInstance k rest with
    | none              => none
    | some (.next ts)   => some (.next (s :: ts))
    | some (.fault f)   => some (.fault f)
    | some (.refused r) => some (.refused r)

end Sys2Proof.Machine
end

