-- ==== Sys2Proof/Machine/Assembly.lean ====
section
/-! DEFINITION. The assembly lines of 30_encoding.md R86 as agents' steps and as text, and the
pseudo-instructions of R87. -/

namespace Sys2Proof.Machine

/-- The line of an operation, issued on its own port (R86). DESIGN CHOICE, unsafe: the line `A: process`
stands for PROCESS's first step alone, and each micro-step is an entry `processMicro` of its own; R86 has
one step per line, while 95_test_vectors.md gives the line the whole PROCESS's response (log entry 22). -/
def issue (i : Instr) : AgentStep := .request (encode i)

/-- `S: answer ok` (R86): the Sink answers the pending SEND, and SEND's second step follows
(log entry 9). -/
def answerLine (ok : Bool) : List AgentStep := [.sinkAnswer ok, .sendComplete]

/-- `P: deliver [b0, …, bk]`: `P: write b0` … `P: write bk`, consecutively (R87). -/
def deliver (bs : List Byte) : List AgentStep := bs.map fun b => issue (.rbWrite b)

/-- `A: send_and_check p, T`: `A: send p, T` and then the Sink's answer (R87). DESIGN CHOICE, safe:
the answer is in the list whatever the payload's length; R87 does not say what the line is for a payload
above MAX_DATA_LENGTH, where no Sink step happens (R138 (a)). There SEND answers PayloadTooLarge, and
the Sink's answer after it is refused as `noFrameForSink` (log entry 23). -/
def sendAndCheck (p : List Byte) (t : Timeout) (ok : Bool) : List AgentStep :=
  issue (.send p t) :: answerLine ok

/-- `A: drain`, the Consumer's loop (R87): what the Consumer issues next, seen from the last response
it got since the loop began. After FrameReady it takes the frame, after NoNewFrame it stops, and
otherwise it issues PROCESS; a PROCESS in progress goes on. -/
def drainNext (s : State) (last : Option Output) : Option AgentStep :=
  if s.cOp = .inProcess then some .processMicro
  else match last with
    | some (.process true)  => some (issue .takeFrame)
    | some (.process false) => none
    | _                     => some (issue .process)

/-- The drain loop run for at most `fuel` steps, with no other agent between; `seen` is the number of
outputs sent before the loop began. -/
def drain (seen : Nat) : Nat → State → Result
  | 0, s => .next s
  | fuel + 1, s =>
    match drainNext s (s.outputs.drop seen).getLast? with
    | none   => .next s
    | some a =>
      match agentStep a s with
      | .next t    => drain seen fuel t
      | .fault f   => .fault f
      | .refused r => .refused r

/-- A hexadecimal digit. -/
def hexDigit (n : Nat) : String := String.singleton ("0123456789ABCDEF".toList.getD n '0')

/-- A byte operand: `0x` and two hexadecimal digits (R86). -/
def hexByte (b : Byte) : String := "0x" ++ hexDigit (b.toNat / 16) ++ hexDigit (b.toNat % 16)

/-- A list operand, in brackets (R86). -/
def hexList (bs : List Byte) : String := "[" ++ ", ".intercalate (bs.map hexByte) ++ "]"

/-- The line of an operation as text (R86). A timeout has no written form in R86 but the letter T; the
model writes its number after it. -/
def asmText : Instr → String
  | .rbWrite b   => "P: write " ++ hexByte b
  | .rbRead      => "A: read"
  | .rbAvailable => "A: available"
  | .checksum s  => "A: checksum " ++ hexList s
  | .encode p    => "A: encode " ++ hexList p
  | .send p t    => "A: send " ++ hexList p ++ ", T" ++ toString t.token
  | .parseStep b => "A: parse " ++ hexByte b
  | .process     => "A: process"
  | .takeFrame   => "A: take"
  | .init        => "A: init"
  | .startRx     => "A: start_rx"
  | .stopRx      => "A: stop_rx"

end Sys2Proof.Machine
end

