-- ==== Sys2Proof/Safety.lean ====
section
/-! DEFINITION. The terms claims are made in: runs of several steps, and the invariant of the
reachable states, from the spec's own lists (10_state.md R24 to R26, R29, R32 to R34; 20_memory.md
R50). -/

namespace Sys2Proof.Machine

/-- The build is legal and the Consumer port is free to take an operation (R227, R244). -/
abbrev State.consumerFree (s : State) : Prop := s.cfg.legal = true ∧ s.cOp = .none

/-- Both ring indices are below RB_SIZE (R24). -/
abbrev State.ringInRange (s : State) : Prop := s.rbHead < s.cfg.rbSize ∧ s.rbTail < s.cfg.rbSize

/-- A result with its next state changed by `f`; a fault or a refusal stays. -/
def onNext (f : State → State) : Result → Result
  | .next t    => .next (f t)
  | .fault e   => .fault e
  | .refused r => .refused r

/-- Several operations issued one after the other, with no other step between; it stops at the first
fault or refusal. -/
def execAll : List Instr → State → Result
  | [], s => .next s
  | i :: rest, s =>
    match exec i s with
    | .next t    => execAll rest t
    | .fault f   => .fault f
    | .refused r => .refused r

/-- Several steps of the agents, one after the other, with no other step between; it stops at the first
fault or refusal. -/
def runAgents : List AgentStep → State → Result
  | [], s => .next s
  | a :: rest, s =>
    match agentStep a s with
    | .next t    => runAgents rest t
    | .fault f   => .fault f
    | .refused r => .refused r

/-- A PROCESS with no other step between its `n` micro-steps, and the TAKE_FRAME after it. -/
def processThenTake (n : Nat) : List AgentStep :=
  issue .process :: (List.replicate n .processMicro ++ [issue .takeFrame])

/-- The parser's payload so far: `p_buf[0..p_received)`. -/
def State.payloadSoFar (s : State) : List Byte := s.slots .pBuf s.pReceived.toNat

/-- The parser is in the state given (R77). -/
def State.inState (s : State) (p : ParserState) : Prop := s.pState = p.code

/-- Every register at the value R36 and R240 give for reset. -/
def State.registersReset (s : State) : Prop :=
  s.rbHead = 0 ∧ s.rbTail = 0 ∧ s.inState .idle ∧ s.pExpected = 0 ∧ s.pReceived = 0 ∧ s.pSum = 0 ∧
    s.pCsOk = false ∧ s.ibReady = false ∧ s.ibLen = 0 ∧ s.cOp = .none ∧ s.cSend = none

/-- A slot of an array has been written since power-on. -/
def State.written (s : State) (a : ArrayId) (i : Nat) : Prop := ((s.array a).lookup i).isSome = true

/-- The listed slots of an array are in canonical form and in range (R50). -/
def State.arrayOk (s : State) (a : ArrayId) : Prop :=
  (s.array a).wf ∧ ∀ c ∈ s.array a, c.1 < s.cfg.slots a

/-- The ring: indices in range (R24), and every slot that holds an unread byte has been written (R26). -/
structure State.RingInv (s : State) : Prop where
  head_lt : s.rbHead < s.cfg.rbSize
  tail_lt : s.rbTail < s.cfg.rbSize
  unread_written : ∀ k, k < s.ringCount → s.written .rbBuf (s.unreadSlot k)

/-- The parser (R29, its clauses by letter), with what an induction needs beside it: in HeadFound no
payload byte is counted (R152), and the slots counted have been written. -/
structure State.ParserInv (s : State) : Prop where
  /-- (a) -/
  csOk_receiving : s.pCsOk = true → s.inState .dataReceiving
  /-- (b) -/
  expected_le : s.inState .lengthReceived ∨ s.inState .dataReceiving ∨ s.inState .frameComplete →
    s.pExpected.toNat ≤ s.cfg.maxDataLength
  /-- R152 -/
  headFound_fresh : s.inState .headFound → s.pReceived = 0
  /-- (c) -/
  lengthReceived_fresh : s.inState .lengthReceived → s.pReceived = 0
  /-- (d) -/
  received_le : s.inState .dataReceiving → s.pReceived ≤ s.pExpected
  /-- (d) -/
  received_pos : s.inState .dataReceiving → 1 ≤ s.pExpected → 1 ≤ s.pReceived
  /-- (d) -/
  received_all : s.inState .dataReceiving → s.pCsOk = true → s.pReceived = s.pExpected
  /-- (e) -/
  sum_tracks : s.inState .lengthReceived ∨ s.inState .dataReceiving →
    s.pSum = checksum (s.pExpected :: s.payloadSoFar)
  /-- (f) -/
  state_legal : (ParserState.ofCode s.pState).isSome = true
  received_written : s.inState .dataReceiving → ∀ i, i < s.pReceived.toNat → s.written .pBuf i
  expected_written : s.inState .frameComplete → ∀ i, i < s.pExpected.toNat → s.written .pBuf i

/-- The Inbox (R32, R33). -/
structure State.InboxInv (s : State) : Prop where
  ready_iff : s.ibReady = true ↔ s.inState .frameComplete
  len_eq : s.ibReady = true → s.ibLen = s.pExpected
  payload_eq : s.ibReady = true → ∀ i, i < s.ibLen.toNat → s.ibBuf.lookup i = s.pBuf.lookup i

/-- The Consumer port's bookkeeping (R34): a frame is with the Sink exactly while a SEND is in
progress, it is an encoded frame (R136), the Sink's answer stands only while one is, and no PROCESS is
in progress while a frame is pending (R172, R175). -/
structure State.PortInv (s : State) : Prop where
  send_iff : s.cSend.isSome = true ↔ s.cOp = .inSend
  send_frame : ∀ f t, s.cSend = some (f, t) →
    ∃ p, s.cfg.fits p = true ∧ f = encodeFrame s.cfg p
  answer_inSend : s.sinkAnswer.isSome = true → s.cOp = .inSend
  process_open : s.cOp = .inProcess → ¬ s.inState .frameComplete

/-- What holds in every state that a run from a legal build's reset reaches. -/
structure State.Inv (s : State) : Prop where
  legal  : s.cfg.legal = true
  arrays : ∀ a, s.arrayOk a
  ring   : s.RingInv
  parser : s.ParserInv
  inbox  : s.InboxInv
  port   : s.PortInv

end Sys2Proof.Machine
end

