-- ==== Sys2Proof/Certificates/Slice0/Obligations.lean ====
section
/-! DEFINITION. The statements about the framing core, in the order of spec/'s files. Each docstring
names the rule it formalises. A record update `{ s with … }` as the whole next state is the frame: every
field that it does not name, the arrays among them, keeps its value. Every statement holds for all
parameters of a legal build, and for every draw of the free values. -/

open Sys2Proof Sys2Proof.Machine

/-! ### Command words (30_encoding.md R80 to R82) -/

/-- Decoding the request of an operation gives the operation back, with every operand. -/
def Obligations.DecodeOfEncodeIsTheInstruction : Prop :=
  ∀ i : Instr, decode (encode i) = .ok i

/-- A request decodes to `i` exactly when it is on `i`'s port, its word is `i`'s word and the operands
beside it are `i`'s: no word has two meanings, and no bit of a word or operand is dropped. What stands
beside the word of an operation without such an operand is ignored: the model's choice, log entry 13. -/
def Obligations.DecodeIsTheInverseOfEncode : Prop :=
  ∀ (r : Request) (i : Instr),
    decode r = .ok i ↔
      r.port = (encode i).port ∧ r.word = (encode i).word ∧
        (i.takesBytes = true → r.bytes = (encode i).bytes) ∧
        (i.takesTimeout = true → r.timeout = (encode i).timeout)

/-- The decoder, written from the fields of R80, accepts exactly the words of the opcode table's match
and mask on the table's ports, whatever stands beside the word (log entry 13). -/
def Obligations.DecoderAcceptsExactlyTheOpcodeTable : Prop :=
  ∀ r : Request, (∃ i, decode r = .ok i) ↔ r.wellFormed = true

/-- R82: a reserved op, RB_WRITE on the Consumer port, another op on the Producer port, and a nonzero imm8
of an op whose imm8 must be 0x00 are refused, by the decoder and by the step. -/
def Obligations.IllegalCommandWordsAreRefused : Prop :=
  ∀ r : Request,
    (cmdOp r.word ∈ [0x0, 0xD, 0xE, 0xF] ∨
     (cmdOp r.word = 0x1 ∧ r.port = .consumer) ∨
     (cmdOp r.word ≠ 0x1 ∧ r.port = .producer) ∨
     (cmdOp r.word ∉ [0x1, 0x7] ∧ cmdImm r.word ≠ 0x00)) →
    ∃ e, decode r = .error e ∧
      ∀ (s : State) (rest : List AgentStep), s.schedule = .request r :: rest →
        step s = .refused (refusalOf e)

/-- The words that R86 writes out decode to the operations it names, as table words (log entry 15). -/
def Obligations.WordsOfTheSpecDecodeAsWritten : Prop :=
  decodeTableWord 16 0x1AA = some (.rbWrite 0xAA) ∧
  decodeTableWord 16 0x200 = some .rbRead ∧
  decodeTableWord 16 0x300 = some .rbAvailable ∧
  decodeTableWord 16 0x400 = some (.checksum []) ∧
  decodeTableWord 16 0x500 = some (.encode []) ∧
  decodeTableWord 16 0x600 = some (.send [] noTimeout) ∧
  decodeTableWord 16 0x7AA = some (.parseStep 0xAA) ∧
  decodeTableWord 16 0x800 = some .process ∧
  decodeTableWord 16 0x900 = some .takeFrame ∧
  decodeTableWord 16 0xA00 = some .init ∧
  decodeTableWord 16 0xB00 = some .startRx ∧
  decodeTableWord 16 0xC00 = some .stopRx

/-! ### The step (20_memory.md R57, R59; 60_exceptions.md R225) -/

/-- When the next step of the schedule is a request that decodes to `i`, the machine's step is `exec i`,
on the state with that request gone from the schedule. The schedule is the model's (log entry 6). -/
def Obligations.StepRunsTheScheduledRequest : Prop :=
  ∀ (s : State) (r : Request) (rest : List AgentStep) (i : Instr),
    s.schedule = .request r :: rest → decode r = .ok i → step s = exec i { s with schedule := rest }

/-- A micro-step, an answer of the Sink or SEND's second step that stands next in the schedule is the
machine's step. The schedule is the model's (log entry 6). -/
def Obligations.StepTakesTheScheduledAgentStep : Prop :=
  ∀ (s : State) (rest : List AgentStep),
    (s.schedule = .processMicro :: rest → step s = processMicro { s with schedule := rest }) ∧
    (∀ ok, s.schedule = .sinkAnswer ok :: rest → step s = sinkAnswers ok { s with schedule := rest }) ∧
    (s.schedule = .sendComplete :: rest → step s = sendComplete { s with schedule := rest })

/-- A table word placed by `withFetchWord` is decoded and run by the very next step (log entry 15). -/
def Obligations.StepRunsThePlacedWord : Prop :=
  ∀ (s : State) (nbits w : Nat) (i : Instr),
    decodeTableWord nbits w = some i → step (s.withFetchWord nbits w) = exec i s

/-- With an empty schedule the step is the one that the environment's free value names, with that turn
used up, or an idle turn where that one is not enabled: the model's choice, log entries 6 and 7 (R59: which
agent steps next is not fixed). -/
def Obligations.UnscheduledStepIsTheEnvironmentsDraw : Prop :=
  ∀ s : State, s.cfg.legal = true → s.schedule = [] →
    step s = match agentStep (Config.environment s.draw s.turn) { s with turn := s.turn + 1 } with
      | .next t    => .next t
      | .fault f   => .fault f
      | .refused _ => .next { s with turn := s.turn + 1 }

/-- R227: while `c_op` is not None every Consumer operation is refused, and the Producer's write still
completes. -/
def Obligations.BusyConsumerIsRefusedAndTheProducerIsNot : Prop :=
  ∀ s : State, s.cfg.legal = true → s.cOp ≠ .none →
    (∀ i, (∀ b, i ≠ .rbWrite b) → exec i s = .refused .consumerBusy) ∧
    (s.ringInRange → ∀ b, ∃ t, exec (.rbWrite b) s = .next t ∧ t.cOp = s.cOp)

/-- A build with MAX_DATA_LENGTH > 255 or RB_SIZE < 2 is refused, whatever is asked of it (R10, I23). That it
is refused at the step is the model's choice (log entry 11). -/
def Obligations.IllegalBuildIsRefused : Prop :=
  ∀ s : State, (255 < s.cfg.maxDataLength ∨ s.cfg.rbSize < 2) →
    (∀ i, exec i s = .refused .illegalConfig) ∧
    (∀ ok, sinkAnswers ok s = .refused .illegalConfig) ∧
    processMicro s = .refused .illegalConfig ∧ sendComplete s = .refused .illegalConfig

/-- R215 (b), R77: PARSE_STEP and PROCESS stop with a fault on a `p_state` of 5, 6 or 7, and the five
other values are the five states. Which operations look at it is the model's reading (log entry 10). -/
def Obligations.IllegalParserStateFaults : Prop :=
  (∀ v : BitVec 3, ParserState.ofCode v = none ↔ v = 5 ∨ v = 6 ∨ v = 7) ∧
  (∀ s : State, s.consumerFree → (s.pState = 5 ∨ s.pState = 6 ∨ s.pState = 7) →
    (∀ b, exec (.parseStep b) s = .fault .parserStateIllegal) ∧
    exec .process s = .fault .parserStateIllegal)

/-- R215 (b), I22: the ring's operations stop with a fault on an index at or above RB_SIZE. Which operations
look at both indices is the model's reading (log entry 10). -/
def Obligations.RingIndexOutOfRangeFaults : Prop :=
  ∀ s : State, s.consumerFree → (s.cfg.rbSize ≤ s.rbHead ∨ s.cfg.rbSize ≤ s.rbTail) →
    (∀ b, exec (.rbWrite b) s = .fault .ringIndexOutOfRange) ∧
    exec .rbRead s = .fault .ringIndexOutOfRange ∧ exec .rbAvailable s = .fault .ringIndexOutOfRange

/-! ### The arrays (20_memory.md R50) -/

/-- Every step keeps the three arrays in the model's canonical form, slot numbers strictly rising (log
entry 4). -/
def Obligations.StepKeepsTheArraysCanonical : Prop :=
  ∀ s t : State, (∀ a, (s.array a).wf) → step s = .next t → ∀ a, (t.array a).wf

/-! ### The ring (40_ring_buffer.md) -/

/-- R102: RB_WRITE stores `b` in slot `rb_head`, which holds no unread byte, advances `rb_head`, and on a
full ring advances `rb_tail`, so that the byte at the old `rb_tail` is unread no longer. Nothing else
changes, and no other slot of any array does. -/
def Obligations.RbWriteStoresAndDropsTheOldestWhenFull : Prop :=
  ∀ (b : Byte) (s : State), s.cfg.legal = true → s.ringInRange →
    ∃ t, exec (.rbWrite b) s = .next t ∧
      t = { s with
            rbBuf := t.rbBuf
            rbHead := (s.rbHead + 1) % s.cfg.rbSize
            rbTail := if (s.rbHead + 1) % s.cfg.rbSize = s.rbTail
              then (s.rbTail + 1) % s.cfg.rbSize else s.rbTail } ∧
      t.slot .rbBuf s.rbHead = b ∧
      (∀ a i, ¬ (a = .rbBuf ∧ i = s.rbHead) → t.slot a i = s.slot a i) ∧
      (∀ k, k < s.ringCount → s.unreadSlot k ≠ s.rbHead) ∧
      ((s.rbHead + 1) % s.cfg.rbSize = s.rbTail → ∀ k, k < t.ringCount → t.unreadSlot k ≠ s.rbTail)

/-- R106: RB_READ answers None and changes nothing on an empty ring; else it answers the byte at
`rb_tail` and advances `rb_tail`. -/
def Obligations.RbReadConsumesTheOldestByte : Prop :=
  ∀ s : State, s.consumerFree → s.ringInRange →
    (s.rbHead = s.rbTail →
      exec .rbRead s = .next { s with outputs := s.outputs ++ [.rbRead false 0x00] }) ∧
    (s.rbHead ≠ s.rbTail →
      exec .rbRead s = .next
        { s with
          rbTail := (s.rbTail + 1) % s.cfg.rbSize
          outputs := s.outputs ++ [.rbRead true (s.slot .rbBuf s.rbTail)] })

/-- R108: RB_AVAILABLE (`0x300` on the Consumer port) answers `rb_head != rb_tail` and changes nothing else;
0 after reset, and 1 after one or more writes with no read; and the rule's example. -/
def Obligations.RbAvailableReportsNonEmptiness : Prop :=
  decode ⟨.consumer, 0x300, [], noTimeout⟩ = .ok .rbAvailable ∧
  (∀ s : State, s.consumerFree → s.ringInRange →
    exec .rbAvailable s = .next
      { s with outputs := s.outputs ++ [.rbAvailable (decide (s.rbHead ≠ s.rbTail))] }) ∧
  (∀ (c : Config) (d : Nat), c.legal = true →
    exec .rbAvailable (State.resetWith c d) = .next
      { State.resetWith c d with outputs := [.rbAvailable false] }) ∧
  (∀ (s : State) (bs : List Byte), s.consumerFree → s.ringInRange → bs ≠ [] →
    ∃ t, execAll (bs.map .rbWrite ++ [.rbAvailable]) s = .next t ∧
      t.outputs = s.outputs ++ [.rbAvailable true]) ∧
  (∀ (c : Config) (d : Nat), c.legal = true →
    ∃ t, execAll [.rbWrite 0x55, .rbAvailable, .rbRead, .rbAvailable] (State.resetWith c d) = .next t ∧
      t.outputs = [.rbAvailable true, .rbRead true 0x55, .rbAvailable false])

/-- The ring is a first-in first-out queue of at most RB_SIZE - 1 bytes (R25, R59, R102, R106): a write
appends, dropping the oldest byte of a full ring; a read takes the oldest; RB_AVAILABLE tells whether
there is one. -/
def Obligations.RingRefinesABoundedFifo : Prop :=
  ∀ s : State, s.consumerFree → s.ringInRange →
    (∀ b, ∃ t, exec (.rbWrite b) s = .next t ∧ t.ringInRange ∧
      t.unread = (if s.unread.length = s.cfg.rbUsable then s.unread.tail else s.unread) ++ [b]) ∧
    (∃ t, exec .rbRead s = .next t ∧ t.ringInRange ∧ t.unread = s.unread.tail ∧
      t.outputs = s.outputs ++
        [match s.unread with
         | []     => .rbRead false 0x00
         | b :: _ => .rbRead true b]) ∧
    (∃ t, exec .rbAvailable s = .next t ∧ t.unread = s.unread ∧
      t.outputs = s.outputs ++ [.rbAvailable (!s.unread.isEmpty)])

/-- R110: writes into an empty ring with no read leave the newest `min(n, RB_SIZE - 1)` bytes, oldest
first. -/
def Obligations.OverflowKeepsTheNewestBytes : Prop :=
  ∀ (s : State) (bs : List Byte), s.cfg.legal = true → s.ringInRange → s.rbHead = s.rbTail →
    ∃ t, execAll (bs.map .rbWrite) s = .next t ∧
      t.unread = bs.drop (bs.length - s.cfg.rbUsable) ∧
      t.ringCount = min bs.length s.cfg.rbUsable

/-- R109: bytes written into an empty ring without an overflow are read back in the order written. -/
def Obligations.BytesAreReadBackInWriteOrder : Prop :=
  ∀ (s : State) (bs : List Byte), s.consumerFree → s.ringInRange → s.rbHead = s.rbTail →
    bs.length ≤ s.cfg.rbUsable →
    ∃ t, execAll (bs.map .rbWrite ++ List.replicate bs.length .rbRead) s = .next t ∧
      t.outputs = s.outputs ++ bs.map (.rbRead true) ∧ t.rbHead = t.rbTail

/-! ### The checksum (41_checksum.md) -/

/-- R121: CHECKSUM answers the sum of the bytes over the natural numbers, modulo 256, and changes no other
state. -/
def Obligations.ChecksumIsTheSumModulo256 : Prop :=
  ∀ (span : List Byte) (s : State), s.consumerFree →
    exec (.checksum span) s = .next
      { s with outputs := s.outputs ++ [.checksum (BitVec.ofNat 8 (span.map BitVec.toNat).sum)] }

/-- R122: the checksum is additive over concatenation, 0x00 of nothing, and does not depend on the order
of the bytes. -/
def Obligations.ChecksumIsAdditiveAndOrderFree : Prop :=
  (∀ a b : List Byte, checksum a + checksum b = checksum (a ++ b)) ∧ checksum [] = 0x00 ∧
  (∀ a b : List Byte, a.Perm b → checksum a = checksum b)

/-- R124: one changed byte changes the checksum. -/
def Obligations.ChecksumDetectsOneChangedByte : Prop :=
  ∀ (a b : List Byte) (x y : Byte), x ≠ y → checksum (a ++ x :: b) ≠ checksum (a ++ y :: b)

/-! ### The encoder (42_encoder.md) -/

/-- R131, R132: ENCODE answers the frame, or PayloadTooLarge and no frame, and changes no other state. -/
def Obligations.EncodeAnswersTheFrameOrTooLarge : Prop :=
  ∀ (p : List Byte) (s : State), s.consumerFree →
    (p.length ≤ s.cfg.maxDataLength →
      exec (.encode p) s = .next
        { s with outputs := s.outputs ++ [.encode .ok (some
            ([s.cfg.headByte, BitVec.ofNat 8 p.length] ++ p ++
              [checksum ([BitVec.ofNat 8 p.length] ++ p), s.cfg.tailByte]))] }) ∧
    (s.cfg.maxDataLength < p.length →
      exec (.encode p) s = .next
        { s with outputs := s.outputs ++ [.encode .payloadTooLarge none] })

/-- R70, R73: the frame's bytes by offset, with the checksum as a sum over the natural numbers. -/
def Obligations.FrameHasTheWireFormat : Prop :=
  ∀ (c : Config) (p : List Byte), c.legal = true → c.fits p = true →
    (encodeFrame c p).length = p.length + 4 ∧
    (encodeFrame c p)[0]? = some c.headByte ∧
    (∃ len, (encodeFrame c p)[1]? = some len ∧ len.toNat = p.length) ∧
    (∀ i, i < p.length → (encodeFrame c p)[2 + i]? = p[i]?) ∧
    (∃ cs, (encodeFrame c p)[2 + p.length]? = some cs ∧
      cs.toNat = (p.length + (p.map BitVec.toNat).sum) % 256) ∧
    (encodeFrame c p)[3 + p.length]? = some c.tailByte

/-- R136: SEND's first step hands the frame and the timeout to the Sink, or answers PayloadTooLarge; its
second step, after the answer, ends it with OK or TransmitFailed. No ring, parser or Inbox state changes.
The field `sinkAnswer` between the two is the model's (log entry 9). -/
def Obligations.SendHandsOverThenCompletes : Prop :=
  ∀ s : State, s.cfg.legal = true →
    (∀ p tm, s.cOp = .none → p.length ≤ s.cfg.maxDataLength →
      exec (.send p tm) s = .next
        { s with
          cSend := some (encodeFrame s.cfg p, tm)
          cOp := .inSend
          outputs := s.outputs ++ [.handToSink (encodeFrame s.cfg p) tm] }) ∧
    (∀ p tm, s.cOp = .none → s.cfg.maxDataLength < p.length →
      exec (.send p tm) s = .next { s with outputs := s.outputs ++ [.send .payloadTooLarge] }) ∧
    (∀ ok, s.cOp = .inSend → s.sinkAnswer = some ok →
      sendComplete s = .next
        { s with
          cSend := none
          cOp := .none
          sinkAnswer := none
          outputs := s.outputs ++ [.send (if ok then .ok else .transmitFailed)] })

/-- R226: the Sink answers each frame handed to it once, either way, and touches no core state; where no
frame awaits an answer it has no step (log entry 9). -/
def Obligations.SinkAnswersOncePerFrame : Prop :=
  ∀ (s : State) (ok : Bool), s.cfg.legal = true →
    (s.cOp = .inSend → s.cSend.isSome = true → s.sinkAnswer = none →
      ∃ t, sinkAnswers ok s = .next t ∧ t = { s with sinkAnswer := some ok } ∧
        ∀ again, sinkAnswers again t = .refused .noFrameForSink) ∧
    (s.cSend = none → sinkAnswers ok s = .refused .noFrameForSink)

/-! ### The parser (43_parser.md) -/

/-- R152, R153: Idle. -/
def Obligations.ParseStepHuntsForHeadInIdle : Prop :=
  ∀ (b : Byte) (s : State), s.consumerFree → s.inState .idle →
    (b = s.cfg.headByte →
      exec (.parseStep b) s = .next
        { s with
          pState := ParserState.headFound.code
          pReceived := 0
          pCsOk := false
          outputs := s.outputs ++ [.parseStep false] }) ∧
    (b ≠ s.cfg.headByte →
      exec (.parseStep b) s = .next { s with outputs := s.outputs ++ [.parseStep false] })

/-- R154, R155 (with the resync of R163): HeadFound. -/
def Obligations.ParseStepTakesTheLengthInHeadFound : Prop :=
  ∀ (b : Byte) (s : State), s.consumerFree → s.inState .headFound →
    (b.toNat ≤ s.cfg.maxDataLength →
      exec (.parseStep b) s = .next
        { s with
          pState := ParserState.lengthReceived.code
          pExpected := b
          pSum := b
          outputs := s.outputs ++ [.parseStep false] }) ∧
    (s.cfg.maxDataLength < b.toNat →
      exec (.parseStep b) s = .next
        { s with
          pState := ParserState.idle.code
          pCsOk := false
          outputs := s.outputs ++ [.parseStep false] })

/-- R156, R157, R158: LengthReceived. The first payload byte goes to slot 0 of `p_buf`, and no other slot
of any array changes. -/
def Obligations.ParseStepInLengthReceived : Prop :=
  ∀ (b : Byte) (s : State), s.consumerFree → s.inState .lengthReceived →
    (s.pExpected = 0 → b = 0x00 →
      exec (.parseStep b) s = .next
        { s with
          pState := ParserState.dataReceiving.code
          pCsOk := true
          outputs := s.outputs ++ [.parseStep false] }) ∧
    (s.pExpected = 0 → b ≠ 0x00 →
      exec (.parseStep b) s = .next
        { s with
          pState := ParserState.idle.code
          pCsOk := false
          outputs := s.outputs ++ [.parseStep false] }) ∧
    (s.pExpected ≠ 0 → s.pExpected.toNat ≤ s.cfg.maxDataLength →
      ∃ t, exec (.parseStep b) s = .next t ∧
        t = { s with
              pBuf := t.pBuf
              pReceived := 1
              pSum := s.pSum + b
              pState := ParserState.dataReceiving.code
              outputs := s.outputs ++ [.parseStep false] } ∧
        t.slot .pBuf 0 = b ∧
        (∀ a i, ¬ (a = .pBuf ∧ i = 0) → t.slot a i = s.slot a i))

/-- R159, R160, R162: DataReceiving before the checksum is accepted. A payload byte goes to slot
`p_received` of `p_buf`, and no other slot of any array changes. -/
def Obligations.ParseStepInDataReceiving : Prop :=
  ∀ (b : Byte) (s : State), s.consumerFree → s.inState .dataReceiving → s.pCsOk = false →
    (s.pReceived < s.pExpected → s.pExpected.toNat ≤ s.cfg.maxDataLength →
      ∃ t, exec (.parseStep b) s = .next t ∧
        t = { s with
              pBuf := t.pBuf
              pReceived := s.pReceived + 1
              pSum := s.pSum + b
              outputs := s.outputs ++ [.parseStep false] } ∧
        t.pReceived.toNat = s.pReceived.toNat + 1 ∧
        t.slot .pBuf s.pReceived.toNat = b ∧
        (∀ a i, ¬ (a = .pBuf ∧ i = s.pReceived.toNat) → t.slot a i = s.slot a i)) ∧
    (s.pReceived = s.pExpected → b = s.pSum →
      exec (.parseStep b) s = .next
        { s with pCsOk := true, outputs := s.outputs ++ [.parseStep false] }) ∧
    (s.pReceived = s.pExpected → b ≠ s.pSum →
      exec (.parseStep b) s = .next
        { s with
          pState := ParserState.idle.code
          pCsOk := false
          outputs := s.outputs ++ [.parseStep false] })

/-- R161, R164: the checksum is accepted and TAIL is awaited. Publication copies the payload into slots
`0 .. p_expected-1` of `ib_buf`, and no other slot of any array changes; no frame was pending before. -/
def Obligations.ParseStepPublishesOnTail : Prop :=
  ∀ (b : Byte) (s : State), s.consumerFree → s.inState .dataReceiving → s.pCsOk = true →
    (b = s.cfg.tailByte → s.pExpected.toNat ≤ s.cfg.maxDataLength →
      ∃ t, exec (.parseStep b) s = .next t ∧
        t = { s with
              ibBuf := t.ibBuf
              ibLen := s.pExpected
              ibReady := true
              pState := ParserState.frameComplete.code
              pCsOk := false
              outputs := s.outputs ++ [.parseStep true] } ∧
        (∀ i, i < s.pExpected.toNat → t.slot .ibBuf i = s.slot .pBuf i) ∧
        (∀ a i, ¬ (a = .ibBuf ∧ i < s.pExpected.toNat) → t.slot a i = s.slot a i)) ∧
    (s.Inv → s.ibReady = false) ∧
    (b ≠ s.cfg.tailByte →
      exec (.parseStep b) s = .next
        { s with
          pState := ParserState.idle.code
          pCsOk := false
          outputs := s.outputs ++ [.parseStep false] })

/-- R165: FrameComplete ignores every byte. -/
def Obligations.ParseStepIgnoresBytesInFrameComplete : Prop :=
  ∀ (b : Byte) (s : State), s.consumerFree → s.inState .frameComplete →
    exec (.parseStep b) s = .next { s with outputs := s.outputs ++ [.parseStep false] }

/-- R166: PARSE_STEP answers FrameReady exactly when the checksum was accepted in DataReceiving and the
byte is TAIL, and None in every other case. -/
def Obligations.FrameReadyExactlyOnAcceptedTail : Prop :=
  ∀ (b : Byte) (s t : State), exec (.parseStep b) s = .next t →
    ((s.inState .dataReceiving ∧ s.pCsOk = true ∧ b = s.cfg.tailByte) →
      t.outputs = s.outputs ++ [.parseStep true]) ∧
    (¬ (s.inState .dataReceiving ∧ s.pCsOk = true ∧ b = s.cfg.tailByte) →
      t.outputs = s.outputs ++ [.parseStep false])

/-- R214: in every state that meets the invariant, every byte has a transition. -/
def Obligations.EveryByteHasATransition : Prop :=
  ∀ (b : Byte) (s : State), s.Inv → s.cOp = .none →
    ∃ t, exec (.parseStep b) s = .next t ∧ (ParserState.ofCode t.pState).isSome = true

/-- R172, R175: PROCESS's first step answers NoNewFrame while a frame is pending, and reads no byte; in
the four other states it starts. -/
def Obligations.ProcessStartsUnlessAFrameIsPending : Prop :=
  ∀ s : State, s.consumerFree →
    (s.inState .frameComplete →
      exec .process s = .next { s with outputs := s.outputs ++ [.process false] }) ∧
    (s.inState .idle ∨ s.inState .headFound ∨ s.inState .lengthReceived ∨ s.inState .dataReceiving →
      exec .process s = .next { s with cOp := .inProcess })

/-- R172, R173: a micro-step that finds the ring empty ends PROCESS with NoNewFrame; any other one is an
RB_READ of the oldest byte and a PARSE_STEP of it, as the Consumer's own PARSE_STEP does it, and ends
PROCESS exactly when that answers FrameReady. -/
def Obligations.MicroStepReadsThenParses : Prop :=
  ∀ s : State, s.cfg.legal = true → s.cOp = .inProcess → s.ringInRange →
    (s.rbHead = s.rbTail →
      processMicro s = .next { s with cOp := .none, outputs := s.outputs ++ [.process false] }) ∧
    (s.rbHead ≠ s.rbTail → ∀ t ready,
      exec (.parseStep (s.slot .rbBuf s.rbTail))
        { s with rbTail := (s.rbTail + 1) % s.cfg.rbSize, cOp := .none } = .next t →
      t.outputs = s.outputs ++ [.parseStep ready] →
      processMicro s = .next
        (if ready = true then { t with outputs := s.outputs ++ [.process true] }
         else { t with cOp := .inProcess, outputs := s.outputs }))

/-- R176: whatever the Producer writes between the micro-steps, a PROCESS in progress with `k` unread bytes
ends after at most `k + w + 1` micro-steps, `w` the number of bytes written, and answers once: some first
part of the steps ends it. -/
def Obligations.ProcessEndsAfterTheBytesBufferedAndWritten : Prop :=
  ∀ (s : State) (steps : List AgentStep) (w : Nat), s.Inv → s.cOp = .inProcess →
    (∀ a ∈ steps, a = .processMicro ∨ ∃ b, a = issue (.rbWrite b)) →
    steps.length = steps.count .processMicro + w → s.ringCount + w + 1 ≤ steps.count .processMicro →
    ∃ pre suf, steps = pre ++ suf ∧
      ∃ t, runAgents pre s = .next t ∧ t.cOp = .none ∧
        ∃ ready, t.outputs = s.outputs ++ [.process ready]

/-- R176: the run that never ends is admitted. When the Producer writes a byte other than HEAD_BYTE before
each micro-step, PROCESS is still in progress after any number of them, with no answer. -/
def Obligations.ProcessGoesOnWhileTheProducerWrites : Prop :=
  ∀ (s : State) (b : Byte) (n : Nat), s.cfg.legal = true → s.cOp = .inProcess → s.ringInRange →
    s.inState .idle → s.rbHead = s.rbTail → b ≠ s.cfg.headByte →
    ∃ t, runAgents (List.replicate n [issue (.rbWrite b), .processMicro]).flatten s = .next t ∧
      t.cOp = .inProcess ∧ t.outputs = s.outputs

/-- R140: the bytes of a frame, parsed one at a time from Idle, give FrameReady on the last byte and on no
earlier one, and leave the payload in the Inbox. -/
def Obligations.EncodedFrameParsesBackToItsPayload : Prop :=
  ∀ (s : State) (p : List Byte), s.consumerFree → s.inState .idle → p.length ≤ s.cfg.maxDataLength →
    ∃ t, execAll ((encodeFrame s.cfg p).map .parseStep) s = .next t ∧
      t.outputs = s.outputs ++ List.replicate (p.length + 3) (.parseStep false) ++ [.parseStep true] ∧
      t.inState .frameComplete ∧ t.ibReady = true ∧ t.ibLen.toNat = p.length ∧
      t.slots .ibBuf p.length = p

/-- R179 (a), (b) and (c): a frame with its TAIL, its CHECKSUM, or its LEN (to a value above
MAX_DATA_LENGTH) corrupted is dropped without an answer, and the valid frame after it is received. In
case (c) no later byte of the corrupted frame may equal HEAD_BYTE, in case (b) the TAIL may not. -/
def Obligations.CorruptedFrameIsDroppedAndTheNextReceived : Prop :=
  ∀ (s : State) (p q : List Byte) (x : Byte), s.consumerFree → s.inState .idle →
    p.length ≤ s.cfg.maxDataLength → q.length ≤ s.cfg.maxDataLength →
    ∀ bad : List Byte,
    (x ≠ s.cfg.tailByte ∧
        bad = [s.cfg.headByte, lenByte p] ++ p ++ [checksum (lenByte p :: p), x]) ∨
    (x ≠ checksum (lenByte p :: p) ∧ s.cfg.tailByte ≠ s.cfg.headByte ∧
        bad = [s.cfg.headByte, lenByte p] ++ p ++ [x, s.cfg.tailByte]) ∨
    (s.cfg.maxDataLength < x.toNat ∧
        s.cfg.headByte ∉ p ++ [checksum (lenByte p :: p), s.cfg.tailByte] ∧
        bad = [s.cfg.headByte, x] ++ p ++ [checksum (lenByte p :: p), s.cfg.tailByte]) →
    ∃ t, execAll ((bad ++ encodeFrame s.cfg q).map .parseStep) s = .next t ∧
      t.outputs = s.outputs ++ List.replicate (bad.length + q.length + 3) (.parseStep false) ++
        [.parseStep true] ∧
      t.ibReady = true ∧ t.ibLen.toNat = q.length ∧ t.slots .ibBuf q.length = q

/-- R172, R173, R191: a frame that stands first in the ring is returned by one PROCESS of `len(p) + 4`
micro-steps and one TAKE_FRAME, and the bytes after it stay in the ring. -/
def Obligations.BufferedFrameIsProcessedAndTaken : Prop :=
  ∀ (s : State) (p rest : List Byte), s.consumerFree → s.ringInRange → s.inState .idle →
    p.length ≤ s.cfg.maxDataLength → s.unread = encodeFrame s.cfg p ++ rest →
    ∃ t, runAgents (processThenTake (p.length + 4)) s = .next t ∧
      t.outputs = s.outputs ++ [.process true, .takeFrame .ok p (lenByte p)] ∧
      t.unread = rest ∧ t.inState .idle ∧ t.ibReady = false ∧ t.cOp = .none

/-- R178: of two frames delivered into an empty ring that holds both, the first PROCESS and TAKE_FRAME
return the first and the second ones the second. -/
def Obligations.BacklogOfTwoFramesIsReceivedOneAtATime : Prop :=
  ∀ (s : State) (p q : List Byte), s.consumerFree → s.ringInRange → s.inState .idle →
    s.rbHead = s.rbTail → p.length ≤ s.cfg.maxDataLength → q.length ≤ s.cfg.maxDataLength →
    (p.length + 4) + (q.length + 4) ≤ s.cfg.rbUsable →
    ∃ t, runAgents
        (deliver (encodeFrame s.cfg p ++ encodeFrame s.cfg q) ++
          processThenTake (p.length + 4) ++ processThenTake (q.length + 4)) s = .next t ∧
      t.outputs = s.outputs ++
        [.process true, .takeFrame .ok p (lenByte p), .process true, .takeFrame .ok q (lenByte q)] ∧
      t.rbHead = t.rbTail ∧ t.inState .idle

/-! ### The Inbox and the control operations (44_inbox_and_control.md) -/

/-- R191: TAKE_FRAME with nothing pending answers NoFrameAvailable and changes nothing; else it answers the
pending payload and length, clears the pending flag and puts the parser back to Idle. -/
def Obligations.TakeFrameReturnsThePendingFrame : Prop :=
  ∀ s : State, s.consumerFree →
    (s.ibReady = false →
      exec .takeFrame s = .next
        { s with outputs := s.outputs ++ [.takeFrame .noFrameAvailable [] 0x00] }) ∧
    (s.ibReady = true → s.ibLen.toNat ≤ s.cfg.maxDataLength →
      exec .takeFrame s = .next
        { s with
          ibReady := false
          pState := ParserState.idle.code
          pCsOk := false
          outputs := s.outputs ++
            [.takeFrame .ok ((List.range s.ibLen.toNat).map (s.slot .ibBuf)) s.ibLen] })

/-- R192 (d): of two takes in a row the second finds nothing, and changes nothing. -/
def Obligations.SecondTakeFindsNothing : Prop :=
  ∀ s t : State, exec .takeFrame s = .next t →
    exec .takeFrame t = .next
      { t with outputs := t.outputs ++ [.takeFrame .noFrameAvailable [] 0x00] }

/-- R191, C13: a step takes the parser out of FrameComplete only if it is a TAKE_FRAME or an INIT. -/
def Obligations.OnlyTakeAndInitLeaveFrameComplete : Prop :=
  ∀ (a : AgentStep) (s t : State), agentStep a s = .next t →
    s.inState .frameComplete → ¬ t.inState .frameComplete →
    ∃ r, a = .request r ∧ (decode r = .ok .takeFrame ∨ decode r = .ok .init)

/-- R150: only PARSE_STEP (and PROCESS's micro-steps through it), TAKE_FRAME and INIT write parser
registers. -/
def Obligations.OnlyTheParserTakeAndInitWriteTheParser : Prop :=
  ∀ (a : AgentStep) (s t : State), agentStep a s = .next t → a ≠ .processMicro →
    (∀ r, a = .request r →
      (∀ b, decode r ≠ .ok (.parseStep b)) ∧ decode r ≠ .ok .takeFrame ∧ decode r ≠ .ok .init) →
    t.pState = s.pState ∧ t.pExpected = s.pExpected ∧ t.pReceived = s.pReceived ∧ t.pSum = s.pSum ∧
      t.pCsOk = s.pCsOk ∧ t.pBuf = s.pBuf

/-- R28: `p_cs_ok` is set only by a parsed byte that matches the checksum, in LengthReceived (R156) or
DataReceiving (R160), and cleared only by a parsed byte, a TAKE_FRAME or an INIT. -/
def Obligations.ChecksumFlagIsSetOnlyByAMatchingByte : Prop :=
  ∀ (a : AgentStep) (s t : State), agentStep a s = .next t →
    (s.pCsOk = false → t.pCsOk = true →
      ∃ b, ((∃ r, a = .request r ∧ decode r = .ok (.parseStep b)) ∨
          (a = .processMicro ∧ b = s.slot .rbBuf s.rbTail)) ∧
        ((s.inState .lengthReceived ∧ s.pExpected = 0 ∧ b = checksum [s.pExpected]) ∨
         (s.inState .dataReceiving ∧ s.pExpected ≤ s.pReceived ∧ b = s.pSum))) ∧
    (s.pCsOk = true → t.pCsOk = false →
      a = .processMicro ∨
        ∃ r, a = .request r ∧
          ((∃ b, decode r = .ok (.parseStep b)) ∨ decode r = .ok .takeFrame ∨ decode r = .ok .init))

/-- R196: INIT puts every register at its reset value (R240) and keeps the arrays. -/
def Obligations.InitPutsEveryRegisterAtItsResetValue : Prop :=
  ∀ s : State, s.consumerFree →
    ∃ t, exec .init s = .next t ∧
      t = { s with
            rbHead := 0, rbTail := 0
            pState := ParserState.idle.code, pExpected := 0, pReceived := 0, pSum := 0, pCsOk := false
            ibReady := false, ibLen := 0 } ∧
      t = { State.resetWith s.cfg s.draw with
            rbBuf := s.rbBuf, pBuf := s.pBuf, ibBuf := s.ibBuf
            cSend := s.cSend, sinkAnswer := s.sinkAnswer
            outputs := s.outputs, schedule := s.schedule, turn := s.turn }

/-- R200, R202: START_RX (`0xB00`) and STOP_RX (`0xC00`) send their request to the transport and change no
core state; the Producer's write still completes after either. -/
def Obligations.StartAndStopOnlySendARequest : Prop :=
  decode ⟨.consumer, 0xB00, [], noTimeout⟩ = .ok .startRx ∧
  decode ⟨.consumer, 0xC00, [], noTimeout⟩ = .ok .stopRx ∧
  ∀ s : State, s.consumerFree →
    exec .startRx s = .next { s with outputs := s.outputs ++ [.startRequest] } ∧
    exec .stopRx s = .next { s with outputs := s.outputs ++ [.stopRequest] } ∧
    (s.ringInRange → ∀ b, ∃ t u,
      execAll [.startRx, .rbWrite b] s = .next t ∧ execAll [.stopRx, .rbWrite b] s = .next u ∧
      t.unread.getLast? = some b ∧ u.unread.getLast? = some b)

/-! ### The whole machine -/

/-- R240: the reset state's registers, at power-on and after INIT; the arrays of a machine just powered on
hold the free values of their slots. -/
def Obligations.ResetIsReachedAtPowerOnAndByInit : Prop :=
  (∀ (c : Config) (d : Nat), (State.resetWith c d).registersReset ∧
    ∀ a i, (State.resetWith c d).slot a i = Config.resetByte d a i) ∧
  (∀ s : State, s.Inv → s.cOp = .none → ∃ t, exec .init s = .next t ∧ t.registersReset)

/-- R36, R240: the reset state of every legal build meets the invariant, and so does the machine's own. -/
def Obligations.ResetMeetsTheInvariant : Prop :=
  (∀ (c : Config) (d : Nat), c.legal = true → (State.resetWith c d).Inv) ∧ State.reset.Inv

/-- R24, R26, R29, R32, R33, R34: every step of every agent keeps the invariant. -/
def Obligations.StepKeepsTheInvariant : Prop :=
  ∀ s t : State, s.Inv → step s = .next t → t.Inv

/-- R50, R215 (b): no rule reaches a fault; in a state that meets the invariant no step faults. -/
def Obligations.NoStepFaultsUnderTheInvariant : Prop :=
  ∀ s : State, s.Inv → ∀ f, step s ≠ .fault f

/-- R21: no step changes the parameters of the build, or which draw of the free values the instance has
(the latter is the model's own field, log entry 5). -/
def Obligations.StepKeepsTheParameters : Prop :=
  ∀ s t : State, step s = .next t → t.cfg = s.cfg ∧ t.draw = s.draw

/-- R26, R33, R243: the unspecified contents of the arrays at reset are never observed. In a state that
meets the invariant, changing them (the draw) changes no outcome of any agent's step but itself. -/
def Obligations.ResetContentsAreNeverObserved : Prop :=
  ∀ (a : AgentStep) (s : State) (d : Nat), s.Inv →
    agentStep a { s with draw := d } = onNext (fun t => { t with draw := d }) (agentStep a s)

/-- R23: a step of one instance changes no other instance. -/
def Obligations.InstancesShareNoState : Prop :=
  ∀ (ss ts : List State) (k : Nat), stepInstance k ss = some (.next ts) →
    ts.length = ss.length ∧ (∀ j, j ≠ k → ts[j]? = ss[j]?) ∧
    ∃ s t, ss[k]? = some s ∧ ts[k]? = some t ∧ step s = .next t
end

