-- ==== Sys2Proof/Laws/Checksum.lean ====
section
/-! SUPPORT. The fold behind the checksum (41_checksum.md R121), one byte at a time. -/

namespace Sys2Proof.Machine

theorem foldl_add_start (x : Byte) (bs : List Byte) :
    bs.foldl (· + ·) x = x + bs.foldl (· + ·) 0 := by
  induction bs generalizing x with
  | nil => simp
  | cons b bs ih =>
    rw [List.foldl_cons, List.foldl_cons, ih (x + b), ih (0 + b)]
    simp [BitVec.add_assoc]

@[simp] theorem checksum_nil : checksum [] = 0 := rfl

theorem checksum_cons (b : Byte) (bs : List Byte) : checksum (b :: bs) = b + checksum bs := by
  show bs.foldl (· + ·) (0 + b) = b + bs.foldl (· + ·) 0
  rw [foldl_add_start]
  simp

@[simp] theorem checksum_singleton (b : Byte) : checksum [b] = b := by
  simp [checksum_cons]

/-- The running sum of the parser: one more byte at the end (R159). -/
theorem checksum_concat (bs : List Byte) (b : Byte) : checksum (bs ++ [b]) = checksum bs + b := by
  simp [checksum, List.foldl_append]

end Sys2Proof.Machine
end

