-- ==== Sys2Proof/Laws/Decode.lean ====
section
/-! SUPPORT. The fields of a command word (30_encoding.md R80): packing the operation code and the
immediate byte and reading them back, in both directions. -/

namespace Sys2Proof

theorem extract_high {n m : Nat} (x : BitVec n) (y : BitVec m) :
    BitVec.extractLsb' m n (x ++ y) = x := by
  ext i hi
  simp [BitVec.getLsbD_append, BitVec.getLsbD_eq_getElem hi]

theorem extract_low {n m : Nat} (x : BitVec n) (y : BitVec m) :
    BitVec.extractLsb' 0 m (x ++ y) = y := by
  ext i hi
  simp [BitVec.getLsbD_append, hi]

@[simp] theorem cmdOp_cmdWord (op : BitVec 4) (b : Byte) : cmdOp (cmdWord op b) = op :=
  extract_high op b

@[simp] theorem cmdImm_cmdWord (op : BitVec 4) (b : Byte) : cmdImm (cmdWord op b) = b :=
  extract_low op b

/-- A command word is its operation code and its immediate byte. -/
theorem cmdWord_eta (w : CmdWord) : cmdWord (cmdOp w) (cmdImm w) = w := by
  show (BitVec.extractLsb' 8 4 w ++ BitVec.extractLsb' 0 8 w : BitVec (4 + 8)) = w
  ext i hi
  simp only [BitVec.getElem_append, BitVec.getElem_extractLsb']
  split
  · simp only [Nat.zero_add]
    exact BitVec.getLsbD_eq_getElem hi
  · rw [show 8 + (i - 8) = i by omega]
    exact BitVec.getLsbD_eq_getElem hi

/-- Two words are equal exactly when their fields are. -/
theorem eq_cmdWord_iff (w : CmdWord) (op : BitVec 4) (b : Byte) :
    w = cmdWord op b ↔ cmdOp w = op ∧ cmdImm w = b := by
  constructor
  · rintro rfl
    simp
  · rintro ⟨rfl, rfl⟩
    exact (cmdWord_eta w).symm

end Sys2Proof
end

