-- ==== Sys2Proof/Laws/State.lean ====
section
/-! SUPPORT. What each named update of the state leaves in each field: one lemma per field and update,
true by definition, so that no later proof unfolds a record update. -/

namespace Sys2Proof.Machine.State

/-! ### emit -/

@[simp] theorem emit_cfg (s : State) (o : Output) : (s.emit o).cfg = s.cfg := rfl
@[simp] theorem emit_rbBuf (s : State) (o : Output) : (s.emit o).rbBuf = s.rbBuf := rfl
@[simp] theorem emit_rbHead (s : State) (o : Output) : (s.emit o).rbHead = s.rbHead := rfl
@[simp] theorem emit_rbTail (s : State) (o : Output) : (s.emit o).rbTail = s.rbTail := rfl
@[simp] theorem emit_pState (s : State) (o : Output) : (s.emit o).pState = s.pState := rfl
@[simp] theorem emit_pExpected (s : State) (o : Output) : (s.emit o).pExpected = s.pExpected := rfl
@[simp] theorem emit_pReceived (s : State) (o : Output) : (s.emit o).pReceived = s.pReceived := rfl
@[simp] theorem emit_pSum (s : State) (o : Output) : (s.emit o).pSum = s.pSum := rfl
@[simp] theorem emit_pCsOk (s : State) (o : Output) : (s.emit o).pCsOk = s.pCsOk := rfl
@[simp] theorem emit_pBuf (s : State) (o : Output) : (s.emit o).pBuf = s.pBuf := rfl
@[simp] theorem emit_ibReady (s : State) (o : Output) : (s.emit o).ibReady = s.ibReady := rfl
@[simp] theorem emit_ibLen (s : State) (o : Output) : (s.emit o).ibLen = s.ibLen := rfl
@[simp] theorem emit_ibBuf (s : State) (o : Output) : (s.emit o).ibBuf = s.ibBuf := rfl
@[simp] theorem emit_cOp (s : State) (o : Output) : (s.emit o).cOp = s.cOp := rfl
@[simp] theorem emit_cSend (s : State) (o : Output) : (s.emit o).cSend = s.cSend := rfl
@[simp] theorem emit_sinkAnswer (s : State) (o : Output) : (s.emit o).sinkAnswer = s.sinkAnswer := rfl
@[simp] theorem emit_outputs (s : State) (o : Output) : (s.emit o).outputs = s.outputs ++ [o] := rfl
@[simp] theorem emit_schedule (s : State) (o : Output) : (s.emit o).schedule = s.schedule := rfl
@[simp] theorem emit_draw (s : State) (o : Output) : (s.emit o).draw = s.draw := rfl
@[simp] theorem emit_turn (s : State) (o : Output) : (s.emit o).turn = s.turn := rfl

/-! ### acceptChecksum -/

@[simp] theorem acceptChecksum_cfg (s : State) : (s.acceptChecksum).cfg = s.cfg := rfl
@[simp] theorem acceptChecksum_rbBuf (s : State) : (s.acceptChecksum).rbBuf = s.rbBuf := rfl
@[simp] theorem acceptChecksum_rbHead (s : State) : (s.acceptChecksum).rbHead = s.rbHead := rfl
@[simp] theorem acceptChecksum_rbTail (s : State) : (s.acceptChecksum).rbTail = s.rbTail := rfl
@[simp] theorem acceptChecksum_pState (s : State) : (s.acceptChecksum).pState = s.pState := rfl
@[simp] theorem acceptChecksum_pExpected (s : State) : (s.acceptChecksum).pExpected = s.pExpected := rfl
@[simp] theorem acceptChecksum_pReceived (s : State) : (s.acceptChecksum).pReceived = s.pReceived := rfl
@[simp] theorem acceptChecksum_pSum (s : State) : (s.acceptChecksum).pSum = s.pSum := rfl
@[simp] theorem acceptChecksum_pCsOk (s : State) : (s.acceptChecksum).pCsOk = true := rfl
@[simp] theorem acceptChecksum_pBuf (s : State) : (s.acceptChecksum).pBuf = s.pBuf := rfl
@[simp] theorem acceptChecksum_ibReady (s : State) : (s.acceptChecksum).ibReady = s.ibReady := rfl
@[simp] theorem acceptChecksum_ibLen (s : State) : (s.acceptChecksum).ibLen = s.ibLen := rfl
@[simp] theorem acceptChecksum_ibBuf (s : State) : (s.acceptChecksum).ibBuf = s.ibBuf := rfl
@[simp] theorem acceptChecksum_cOp (s : State) : (s.acceptChecksum).cOp = s.cOp := rfl
@[simp] theorem acceptChecksum_cSend (s : State) : (s.acceptChecksum).cSend = s.cSend := rfl
@[simp] theorem acceptChecksum_sinkAnswer (s : State) : (s.acceptChecksum).sinkAnswer = s.sinkAnswer := rfl
@[simp] theorem acceptChecksum_outputs (s : State) : (s.acceptChecksum).outputs = s.outputs := rfl
@[simp] theorem acceptChecksum_schedule (s : State) : (s.acceptChecksum).schedule = s.schedule := rfl
@[simp] theorem acceptChecksum_draw (s : State) : (s.acceptChecksum).draw = s.draw := rfl
@[simp] theorem acceptChecksum_turn (s : State) : (s.acceptChecksum).turn = s.turn := rfl

/-! ### resync -/

@[simp] theorem resync_cfg (s : State) : (s.resync).cfg = s.cfg := rfl
@[simp] theorem resync_rbBuf (s : State) : (s.resync).rbBuf = s.rbBuf := rfl
@[simp] theorem resync_rbHead (s : State) : (s.resync).rbHead = s.rbHead := rfl
@[simp] theorem resync_rbTail (s : State) : (s.resync).rbTail = s.rbTail := rfl
@[simp] theorem resync_pState (s : State) : (s.resync).pState = ParserState.idle.code := rfl
@[simp] theorem resync_pExpected (s : State) : (s.resync).pExpected = s.pExpected := rfl
@[simp] theorem resync_pReceived (s : State) : (s.resync).pReceived = s.pReceived := rfl
@[simp] theorem resync_pSum (s : State) : (s.resync).pSum = s.pSum := rfl
@[simp] theorem resync_pCsOk (s : State) : (s.resync).pCsOk = false := rfl
@[simp] theorem resync_pBuf (s : State) : (s.resync).pBuf = s.pBuf := rfl
@[simp] theorem resync_ibReady (s : State) : (s.resync).ibReady = s.ibReady := rfl
@[simp] theorem resync_ibLen (s : State) : (s.resync).ibLen = s.ibLen := rfl
@[simp] theorem resync_ibBuf (s : State) : (s.resync).ibBuf = s.ibBuf := rfl
@[simp] theorem resync_cOp (s : State) : (s.resync).cOp = s.cOp := rfl
@[simp] theorem resync_cSend (s : State) : (s.resync).cSend = s.cSend := rfl
@[simp] theorem resync_sinkAnswer (s : State) : (s.resync).sinkAnswer = s.sinkAnswer := rfl
@[simp] theorem resync_outputs (s : State) : (s.resync).outputs = s.outputs := rfl
@[simp] theorem resync_schedule (s : State) : (s.resync).schedule = s.schedule := rfl
@[simp] theorem resync_draw (s : State) : (s.resync).draw = s.draw := rfl
@[simp] theorem resync_turn (s : State) : (s.resync).turn = s.turn := rfl

/-! ### setReady -/

@[simp] theorem setReady_cfg (s : State) (len : Byte) : (s.setReady len).cfg = s.cfg := rfl
@[simp] theorem setReady_rbBuf (s : State) (len : Byte) : (s.setReady len).rbBuf = s.rbBuf := rfl
@[simp] theorem setReady_rbHead (s : State) (len : Byte) : (s.setReady len).rbHead = s.rbHead := rfl
@[simp] theorem setReady_rbTail (s : State) (len : Byte) : (s.setReady len).rbTail = s.rbTail := rfl
@[simp] theorem setReady_pState (s : State) (len : Byte) : (s.setReady len).pState = s.pState := rfl
@[simp] theorem setReady_pExpected (s : State) (len : Byte) : (s.setReady len).pExpected = s.pExpected := rfl
@[simp] theorem setReady_pReceived (s : State) (len : Byte) : (s.setReady len).pReceived = s.pReceived := rfl
@[simp] theorem setReady_pSum (s : State) (len : Byte) : (s.setReady len).pSum = s.pSum := rfl
@[simp] theorem setReady_pCsOk (s : State) (len : Byte) : (s.setReady len).pCsOk = s.pCsOk := rfl
@[simp] theorem setReady_pBuf (s : State) (len : Byte) : (s.setReady len).pBuf = s.pBuf := rfl
@[simp] theorem setReady_ibReady (s : State) (len : Byte) : (s.setReady len).ibReady = true := rfl
@[simp] theorem setReady_ibLen (s : State) (len : Byte) : (s.setReady len).ibLen = len := rfl
@[simp] theorem setReady_ibBuf (s : State) (len : Byte) : (s.setReady len).ibBuf = s.ibBuf := rfl
@[simp] theorem setReady_cOp (s : State) (len : Byte) : (s.setReady len).cOp = s.cOp := rfl
@[simp] theorem setReady_cSend (s : State) (len : Byte) : (s.setReady len).cSend = s.cSend := rfl
@[simp] theorem setReady_sinkAnswer (s : State) (len : Byte) : (s.setReady len).sinkAnswer = s.sinkAnswer := rfl
@[simp] theorem setReady_outputs (s : State) (len : Byte) : (s.setReady len).outputs = s.outputs := rfl
@[simp] theorem setReady_schedule (s : State) (len : Byte) : (s.setReady len).schedule = s.schedule := rfl
@[simp] theorem setReady_draw (s : State) (len : Byte) : (s.setReady len).draw = s.draw := rfl
@[simp] theorem setReady_turn (s : State) (len : Byte) : (s.setReady len).turn = s.turn := rfl

/-! ### clearReady -/

@[simp] theorem clearReady_cfg (s : State) : (s.clearReady).cfg = s.cfg := rfl
@[simp] theorem clearReady_rbBuf (s : State) : (s.clearReady).rbBuf = s.rbBuf := rfl
@[simp] theorem clearReady_rbHead (s : State) : (s.clearReady).rbHead = s.rbHead := rfl
@[simp] theorem clearReady_rbTail (s : State) : (s.clearReady).rbTail = s.rbTail := rfl
@[simp] theorem clearReady_pState (s : State) : (s.clearReady).pState = s.pState := rfl
@[simp] theorem clearReady_pExpected (s : State) : (s.clearReady).pExpected = s.pExpected := rfl
@[simp] theorem clearReady_pReceived (s : State) : (s.clearReady).pReceived = s.pReceived := rfl
@[simp] theorem clearReady_pSum (s : State) : (s.clearReady).pSum = s.pSum := rfl
@[simp] theorem clearReady_pCsOk (s : State) : (s.clearReady).pCsOk = s.pCsOk := rfl
@[simp] theorem clearReady_pBuf (s : State) : (s.clearReady).pBuf = s.pBuf := rfl
@[simp] theorem clearReady_ibReady (s : State) : (s.clearReady).ibReady = false := rfl
@[simp] theorem clearReady_ibLen (s : State) : (s.clearReady).ibLen = s.ibLen := rfl
@[simp] theorem clearReady_ibBuf (s : State) : (s.clearReady).ibBuf = s.ibBuf := rfl
@[simp] theorem clearReady_cOp (s : State) : (s.clearReady).cOp = s.cOp := rfl
@[simp] theorem clearReady_cSend (s : State) : (s.clearReady).cSend = s.cSend := rfl
@[simp] theorem clearReady_sinkAnswer (s : State) : (s.clearReady).sinkAnswer = s.sinkAnswer := rfl
@[simp] theorem clearReady_outputs (s : State) : (s.clearReady).outputs = s.outputs := rfl
@[simp] theorem clearReady_schedule (s : State) : (s.clearReady).schedule = s.schedule := rfl
@[simp] theorem clearReady_draw (s : State) : (s.clearReady).draw = s.draw := rfl
@[simp] theorem clearReady_turn (s : State) : (s.clearReady).turn = s.turn := rfl

/-! ### ringPut -/

@[simp] theorem ringPut_cfg (s : State) (b : Byte) : (s.ringPut b).cfg = s.cfg := rfl
@[simp] theorem ringPut_rbBuf (s : State) (b : Byte) : (s.ringPut b).rbBuf = s.rbBuf.set s.rbHead b := rfl
@[simp] theorem ringPut_rbHead (s : State) (b : Byte) : (s.ringPut b).rbHead = s.cfg.ringNext s.rbHead := rfl
@[simp] theorem ringPut_rbTail (s : State) (b : Byte) : (s.ringPut b).rbTail = if s.ringFull then s.cfg.ringNext s.rbTail else s.rbTail := rfl
@[simp] theorem ringPut_pState (s : State) (b : Byte) : (s.ringPut b).pState = s.pState := rfl
@[simp] theorem ringPut_pExpected (s : State) (b : Byte) : (s.ringPut b).pExpected = s.pExpected := rfl
@[simp] theorem ringPut_pReceived (s : State) (b : Byte) : (s.ringPut b).pReceived = s.pReceived := rfl
@[simp] theorem ringPut_pSum (s : State) (b : Byte) : (s.ringPut b).pSum = s.pSum := rfl
@[simp] theorem ringPut_pCsOk (s : State) (b : Byte) : (s.ringPut b).pCsOk = s.pCsOk := rfl
@[simp] theorem ringPut_pBuf (s : State) (b : Byte) : (s.ringPut b).pBuf = s.pBuf := rfl
@[simp] theorem ringPut_ibReady (s : State) (b : Byte) : (s.ringPut b).ibReady = s.ibReady := rfl
@[simp] theorem ringPut_ibLen (s : State) (b : Byte) : (s.ringPut b).ibLen = s.ibLen := rfl
@[simp] theorem ringPut_ibBuf (s : State) (b : Byte) : (s.ringPut b).ibBuf = s.ibBuf := rfl
@[simp] theorem ringPut_cOp (s : State) (b : Byte) : (s.ringPut b).cOp = s.cOp := rfl
@[simp] theorem ringPut_cSend (s : State) (b : Byte) : (s.ringPut b).cSend = s.cSend := rfl
@[simp] theorem ringPut_sinkAnswer (s : State) (b : Byte) : (s.ringPut b).sinkAnswer = s.sinkAnswer := rfl
@[simp] theorem ringPut_outputs (s : State) (b : Byte) : (s.ringPut b).outputs = s.outputs := rfl
@[simp] theorem ringPut_schedule (s : State) (b : Byte) : (s.ringPut b).schedule = s.schedule := rfl
@[simp] theorem ringPut_draw (s : State) (b : Byte) : (s.ringPut b).draw = s.draw := rfl
@[simp] theorem ringPut_turn (s : State) (b : Byte) : (s.ringPut b).turn = s.turn := rfl

/-! ### ringAdvance -/

@[simp] theorem ringAdvance_cfg (s : State) : (s.ringAdvance).cfg = s.cfg := rfl
@[simp] theorem ringAdvance_rbBuf (s : State) : (s.ringAdvance).rbBuf = s.rbBuf := rfl
@[simp] theorem ringAdvance_rbHead (s : State) : (s.ringAdvance).rbHead = s.rbHead := rfl
@[simp] theorem ringAdvance_rbTail (s : State) : (s.ringAdvance).rbTail = s.cfg.ringNext s.rbTail := rfl
@[simp] theorem ringAdvance_pState (s : State) : (s.ringAdvance).pState = s.pState := rfl
@[simp] theorem ringAdvance_pExpected (s : State) : (s.ringAdvance).pExpected = s.pExpected := rfl
@[simp] theorem ringAdvance_pReceived (s : State) : (s.ringAdvance).pReceived = s.pReceived := rfl
@[simp] theorem ringAdvance_pSum (s : State) : (s.ringAdvance).pSum = s.pSum := rfl
@[simp] theorem ringAdvance_pCsOk (s : State) : (s.ringAdvance).pCsOk = s.pCsOk := rfl
@[simp] theorem ringAdvance_pBuf (s : State) : (s.ringAdvance).pBuf = s.pBuf := rfl
@[simp] theorem ringAdvance_ibReady (s : State) : (s.ringAdvance).ibReady = s.ibReady := rfl
@[simp] theorem ringAdvance_ibLen (s : State) : (s.ringAdvance).ibLen = s.ibLen := rfl
@[simp] theorem ringAdvance_ibBuf (s : State) : (s.ringAdvance).ibBuf = s.ibBuf := rfl
@[simp] theorem ringAdvance_cOp (s : State) : (s.ringAdvance).cOp = s.cOp := rfl
@[simp] theorem ringAdvance_cSend (s : State) : (s.ringAdvance).cSend = s.cSend := rfl
@[simp] theorem ringAdvance_sinkAnswer (s : State) : (s.ringAdvance).sinkAnswer = s.sinkAnswer := rfl
@[simp] theorem ringAdvance_outputs (s : State) : (s.ringAdvance).outputs = s.outputs := rfl
@[simp] theorem ringAdvance_schedule (s : State) : (s.ringAdvance).schedule = s.schedule := rfl
@[simp] theorem ringAdvance_draw (s : State) : (s.ringAdvance).draw = s.draw := rfl
@[simp] theorem ringAdvance_turn (s : State) : (s.ringAdvance).turn = s.turn := rfl

/-! ### initRegisters -/

@[simp] theorem initRegisters_cfg (s : State) : (s.initRegisters).cfg = s.cfg := rfl
@[simp] theorem initRegisters_rbBuf (s : State) : (s.initRegisters).rbBuf = s.rbBuf := rfl
@[simp] theorem initRegisters_rbHead (s : State) : (s.initRegisters).rbHead = 0 := rfl
@[simp] theorem initRegisters_rbTail (s : State) : (s.initRegisters).rbTail = 0 := rfl
@[simp] theorem initRegisters_pState (s : State) : (s.initRegisters).pState = ParserState.idle.code := rfl
@[simp] theorem initRegisters_pExpected (s : State) : (s.initRegisters).pExpected = 0 := rfl
@[simp] theorem initRegisters_pReceived (s : State) : (s.initRegisters).pReceived = 0 := rfl
@[simp] theorem initRegisters_pSum (s : State) : (s.initRegisters).pSum = 0 := rfl
@[simp] theorem initRegisters_pCsOk (s : State) : (s.initRegisters).pCsOk = false := rfl
@[simp] theorem initRegisters_pBuf (s : State) : (s.initRegisters).pBuf = s.pBuf := rfl
@[simp] theorem initRegisters_ibReady (s : State) : (s.initRegisters).ibReady = false := rfl
@[simp] theorem initRegisters_ibLen (s : State) : (s.initRegisters).ibLen = 0 := rfl
@[simp] theorem initRegisters_ibBuf (s : State) : (s.initRegisters).ibBuf = s.ibBuf := rfl
@[simp] theorem initRegisters_cOp (s : State) : (s.initRegisters).cOp = s.cOp := rfl
@[simp] theorem initRegisters_cSend (s : State) : (s.initRegisters).cSend = s.cSend := rfl
@[simp] theorem initRegisters_sinkAnswer (s : State) : (s.initRegisters).sinkAnswer = s.sinkAnswer := rfl
@[simp] theorem initRegisters_outputs (s : State) : (s.initRegisters).outputs = s.outputs := rfl
@[simp] theorem initRegisters_schedule (s : State) : (s.initRegisters).schedule = s.schedule := rfl
@[simp] theorem initRegisters_draw (s : State) : (s.initRegisters).draw = s.draw := rfl
@[simp] theorem initRegisters_turn (s : State) : (s.initRegisters).turn = s.turn := rfl

/-! ### takeInbox -/

@[simp] theorem takeInbox_cfg (s : State) : (s.takeInbox).cfg = s.cfg := rfl
@[simp] theorem takeInbox_rbBuf (s : State) : (s.takeInbox).rbBuf = s.rbBuf := rfl
@[simp] theorem takeInbox_rbHead (s : State) : (s.takeInbox).rbHead = s.rbHead := rfl
@[simp] theorem takeInbox_rbTail (s : State) : (s.takeInbox).rbTail = s.rbTail := rfl
@[simp] theorem takeInbox_pState (s : State) : (s.takeInbox).pState = ParserState.idle.code := rfl
@[simp] theorem takeInbox_pExpected (s : State) : (s.takeInbox).pExpected = s.pExpected := rfl
@[simp] theorem takeInbox_pReceived (s : State) : (s.takeInbox).pReceived = s.pReceived := rfl
@[simp] theorem takeInbox_pSum (s : State) : (s.takeInbox).pSum = s.pSum := rfl
@[simp] theorem takeInbox_pCsOk (s : State) : (s.takeInbox).pCsOk = false := rfl
@[simp] theorem takeInbox_pBuf (s : State) : (s.takeInbox).pBuf = s.pBuf := rfl
@[simp] theorem takeInbox_ibReady (s : State) : (s.takeInbox).ibReady = false := rfl
@[simp] theorem takeInbox_ibLen (s : State) : (s.takeInbox).ibLen = s.ibLen := rfl
@[simp] theorem takeInbox_ibBuf (s : State) : (s.takeInbox).ibBuf = s.ibBuf := rfl
@[simp] theorem takeInbox_cOp (s : State) : (s.takeInbox).cOp = s.cOp := rfl
@[simp] theorem takeInbox_cSend (s : State) : (s.takeInbox).cSend = s.cSend := rfl
@[simp] theorem takeInbox_sinkAnswer (s : State) : (s.takeInbox).sinkAnswer = s.sinkAnswer := rfl
@[simp] theorem takeInbox_outputs (s : State) : (s.takeInbox).outputs = s.outputs := rfl
@[simp] theorem takeInbox_schedule (s : State) : (s.takeInbox).schedule = s.schedule := rfl
@[simp] theorem takeInbox_draw (s : State) : (s.takeInbox).draw = s.draw := rfl
@[simp] theorem takeInbox_turn (s : State) : (s.takeInbox).turn = s.turn := rfl

/-! ### nextTurn -/

@[simp] theorem nextTurn_cfg (s : State) : (s.nextTurn).cfg = s.cfg := rfl
@[simp] theorem nextTurn_rbBuf (s : State) : (s.nextTurn).rbBuf = s.rbBuf := rfl
@[simp] theorem nextTurn_rbHead (s : State) : (s.nextTurn).rbHead = s.rbHead := rfl
@[simp] theorem nextTurn_rbTail (s : State) : (s.nextTurn).rbTail = s.rbTail := rfl
@[simp] theorem nextTurn_pState (s : State) : (s.nextTurn).pState = s.pState := rfl
@[simp] theorem nextTurn_pExpected (s : State) : (s.nextTurn).pExpected = s.pExpected := rfl
@[simp] theorem nextTurn_pReceived (s : State) : (s.nextTurn).pReceived = s.pReceived := rfl
@[simp] theorem nextTurn_pSum (s : State) : (s.nextTurn).pSum = s.pSum := rfl
@[simp] theorem nextTurn_pCsOk (s : State) : (s.nextTurn).pCsOk = s.pCsOk := rfl
@[simp] theorem nextTurn_pBuf (s : State) : (s.nextTurn).pBuf = s.pBuf := rfl
@[simp] theorem nextTurn_ibReady (s : State) : (s.nextTurn).ibReady = s.ibReady := rfl
@[simp] theorem nextTurn_ibLen (s : State) : (s.nextTurn).ibLen = s.ibLen := rfl
@[simp] theorem nextTurn_ibBuf (s : State) : (s.nextTurn).ibBuf = s.ibBuf := rfl
@[simp] theorem nextTurn_cOp (s : State) : (s.nextTurn).cOp = s.cOp := rfl
@[simp] theorem nextTurn_cSend (s : State) : (s.nextTurn).cSend = s.cSend := rfl
@[simp] theorem nextTurn_sinkAnswer (s : State) : (s.nextTurn).sinkAnswer = s.sinkAnswer := rfl
@[simp] theorem nextTurn_outputs (s : State) : (s.nextTurn).outputs = s.outputs := rfl
@[simp] theorem nextTurn_schedule (s : State) : (s.nextTurn).schedule = s.schedule := rfl
@[simp] theorem nextTurn_draw (s : State) : (s.nextTurn).draw = s.draw := rfl
@[simp] theorem nextTurn_turn (s : State) : (s.nextTurn).turn = s.turn + 1 := rfl

end Sys2Proof.Machine.State
end

