-- ==== Sys2Proof/Laws/Memory.lean ====
section
/-! SUPPORT. The laws of the byte arrays: what a slot write and the fill loop of publication do to
every slot, and that they keep the canonical form and the range (20_memory.md R50). -/

namespace Sys2Proof.Machine

namespace Memory

@[simp] theorem lookup_nil (i : Nat) : Memory.lookup [] i = none := rfl

theorem lookup_cons (slot : Nat) (v : Byte) (m : Memory) (i : Nat) :
    Memory.lookup ((slot, v) :: m) i = if i = slot then some v else m.lookup i := rfl

/-- A write changes exactly its own slot. -/
theorem lookup_set (m : Memory) (i j : Nat) (v : Byte) :
    (m.set i v).lookup j = if j = i then some v else m.lookup j := by
  induction m with
  | nil => simp [Memory.set, lookup_cons]
  | cons c m ih =>
    obtain ⟨slot, w⟩ := c
    by_cases h1 : i < slot
    · simp [Memory.set, h1, lookup_cons]
    · by_cases h2 : i = slot
      · subst h2
        by_cases hj : j = i <;> simp [Memory.set, lookup_cons, hj]
      · by_cases hj : j = slot
        · subst hj
          simp [Memory.set, h1, h2, lookup_cons, Ne.symm h2]
        · simp [Memory.set, h1, h2, lookup_cons, hj, ih]

@[simp] theorem lookup_set_self (m : Memory) (i : Nat) (v : Byte) : (m.set i v).lookup i = some v := by
  simp [lookup_set]

theorem lookup_set_of_ne (m : Memory) {i j : Nat} (v : Byte) (h : j ≠ i) :
    (m.set i v).lookup j = m.lookup j := by
  simp [lookup_set, h]

/-- The slots listed after a write: the slot written and those listed before. -/
theorem mem_set {m : Memory} {i : Nat} {v : Byte} {c : Host.Cell} (h : c ∈ m.set i v) :
    c = (i, v) ∨ c ∈ m := by
  induction m with
  | nil => simpa [Memory.set] using h
  | cons d m ih =>
    obtain ⟨slot, w⟩ := d
    by_cases h1 : i < slot
    · simpa [Memory.set, h1] using h
    · by_cases h2 : i = slot
      · subst h2
        simp only [Memory.set, lt_irrefl, if_false, if_true] at h
        rcases List.mem_cons.1 h with h | h
        · exact .inl h
        · exact .inr (List.mem_cons_of_mem _ h)
      · simp only [Memory.set, h1, h2, if_false, List.mem_cons] at h
        rcases h with h | h
        · exact .inr (h ▸ List.mem_cons_self)
        · exact (ih h).imp_right (List.mem_cons_of_mem _)

/-- A write keeps the canonical form. -/
theorem wf_set {m : Memory} (h : m.wf) (i : Nat) (v : Byte) : (m.set i v).wf := by
  induction m with
  | nil => simp [Memory.set, Memory.wf]
  | cons d m ih =>
    obtain ⟨slot, w⟩ := d
    obtain ⟨hd, hm⟩ := List.pairwise_cons.1 h
    by_cases h1 : i < slot
    · simp only [Memory.set, h1, if_true]
      refine List.pairwise_cons.2 ⟨fun c hc => ?_, h⟩
      rcases List.mem_cons.1 hc with rfl | hc
      · exact h1
      · exact lt_trans h1 (hd c hc)
    · by_cases h2 : i = slot
      · subst h2
        simp only [Memory.set, lt_irrefl, if_false, if_true]
        exact List.pairwise_cons.2 ⟨hd, hm⟩
      · simp only [Memory.set, h1, h2, if_false]
        refine List.pairwise_cons.2 ⟨fun c hc => ?_, ih hm⟩
        rcases mem_set hc with rfl | hc
        · show slot < i
          omega
        · exact hd c hc

/-- A write in range keeps every listed slot in range. -/
theorem bound_set {m : Memory} {n i : Nat} {v : Byte} (h : ∀ c ∈ m, c.1 < n) (hi : i < n) :
    ∀ c ∈ m.set i v, c.1 < n := fun c hc => by
  rcases mem_set hc with rfl | hc
  · exact hi
  · exact h c hc

/-- The loop of publication: the slots below `n` hold the source's bytes, and no other slot changes. -/
theorem lookup_fill (src : Nat → Byte) (n : Nat) (m : Memory) (i : Nat) :
    (m.fill src n).lookup i = if i < n then some (src i) else m.lookup i := by
  induction n with
  | zero => simp [Memory.fill]
  | succ n ih =>
    rw [Memory.fill, lookup_set, ih]
    by_cases hi : i = n
    · subst hi; simp
    · have : i < n + 1 ↔ i < n := by omega
      simp [hi, this]

theorem wf_fill {m : Memory} (h : m.wf) (src : Nat → Byte) (n : Nat) : (m.fill src n).wf := by
  induction n with
  | zero => exact h
  | succ n ih => exact wf_set ih n (src n)

theorem bound_fill {m : Memory} {N : Nat} (h : ∀ c ∈ m, c.1 < N) (src : Nat → Byte) :
    ∀ n, n ≤ N → ∀ c ∈ m.fill src n, c.1 < N
  | 0, _ => h
  | n + 1, hn => bound_set (bound_fill h src n (by omega)) (by omega)

/-- Two sources that agree below `n` fill alike. -/
theorem fill_congr {src src' : Nat → Byte} (m : Memory) :
    ∀ n, (∀ i, i < n → src i = src' i) → m.fill src n = m.fill src' n
  | 0, _ => rfl
  | n + 1, h => by
    rw [Memory.fill, Memory.fill, fill_congr m n fun i hi => h i (by omega), h n (by omega)]

end Memory

namespace State

@[simp] theorem array_rbBuf (s : State) : s.array .rbBuf = s.rbBuf := rfl
@[simp] theorem array_pBuf (s : State) : s.array .pBuf = s.pBuf := rfl
@[simp] theorem array_ibBuf (s : State) : s.array .ibBuf = s.ibBuf := rfl

/-- A slot read depends on the array and the draw alone. -/
theorem slot_congr {s t : State} {a : ArrayId} (h : t.array a = s.array a) (hd : t.draw = s.draw)
    (i : Nat) : t.slot a i = s.slot a i := by
  simp [State.slot, h, hd]

/-- A slot that has been written reads as the byte written. -/
theorem slot_of_lookup {s : State} {a : ArrayId} {i : Nat} {v : Byte}
    (h : (s.array a).lookup i = some v) : s.slot a i = v := by
  simp [State.slot, h]

@[simp] theorem slots_length (s : State) (a : ArrayId) (n : Nat) : (s.slots a n).length = n := by
  simp [State.slots]

theorem slots_succ (s : State) (a : ArrayId) (n : Nat) :
    s.slots a (n + 1) = s.slots a n ++ [s.slot a n] := by
  simp [State.slots, List.range_succ]

theorem slots_congr {s t : State} {a : ArrayId} {n : Nat}
    (h : ∀ i, i < n → t.slot a i = s.slot a i) : t.slots a n = s.slots a n := by
  simp only [State.slots]
  exact List.map_congr_left fun i hi => h i (List.mem_range.1 hi)

end State

end Sys2Proof.Machine
end

