-- ==== Sys2Proof/Laws/Ring.lean ====
section
/-! SUPPORT. The laws of the ring (30_encoding.md R79, 10_state.md R25, 40_ring_buffer.md R102, R106):
index arithmetic, the count of unread bytes, and what the shared ring operations answer. -/

namespace Sys2Proof

theorem Config.legal_iff (c : Config) : c.legal = true ↔ 2 ≤ c.rbSize ∧ c.maxDataLength ≤ 255 := by
  simp [Config.legal, Config.ringLegal, Config.lengthLegal]

theorem Config.ringNext_of_lt {c : Config} {i : Nat} (h : i < c.rbSize) :
    c.ringNext i = if i + 1 = c.rbSize then 0 else i + 1 := by
  unfold Config.ringNext
  split
  · next h' => rw [h', Nat.mod_self]
  · exact Nat.mod_eq_of_lt (by omega)

theorem Config.ringNext_lt {c : Config} {i : Nat} (h : i < c.rbSize) : c.ringNext i < c.rbSize :=
  Nat.mod_lt _ (by omega)

end Sys2Proof

namespace Sys2Proof.Machine.State

theorem ringIndicesInRange_iff (s : State) :
    s.ringIndicesInRange = true ↔ s.rbHead < s.cfg.rbSize ∧ s.rbTail < s.cfg.rbSize := by
  simp [State.ringIndicesInRange]

/-- The count of unread bytes without the modulus. -/
theorem ringCount_eq {s : State} (hh : s.rbHead < s.cfg.rbSize) (ht : s.rbTail < s.cfg.rbSize) :
    s.ringCount = if s.rbTail ≤ s.rbHead then s.rbHead - s.rbTail
      else s.rbHead + s.cfg.rbSize - s.rbTail := by
  unfold State.ringCount
  split
  · rw [show s.rbHead + s.cfg.rbSize - s.rbTail = (s.rbHead - s.rbTail) + s.cfg.rbSize by omega,
      Nat.add_mod_right]
    exact Nat.mod_eq_of_lt (by omega)
  · exact Nat.mod_eq_of_lt (by omega)

/-- The slot of an unread byte without the modulus. -/
theorem unreadSlot_eq {s : State} {k : Nat} (ht : s.rbTail < s.cfg.rbSize) (hk : k < s.cfg.rbSize) :
    s.unreadSlot k = if s.rbTail + k < s.cfg.rbSize then s.rbTail + k
      else s.rbTail + k - s.cfg.rbSize := by
  unfold State.unreadSlot
  split
  · exact Nat.mod_eq_of_lt (by assumption)
  · rw [Nat.mod_eq_sub_mod (by omega)]
    exact Nat.mod_eq_of_lt (by omega)

/-- At most `RB_SIZE - 1` bytes are unread. -/
theorem ringCount_lt {s : State} (h : 0 < s.cfg.rbSize) : s.ringCount < s.cfg.rbSize :=
  Nat.mod_lt _ h

theorem ringEmpty_iff (s : State) : s.ringEmpty = true ↔ s.rbHead = s.rbTail := by
  simp [State.ringEmpty]

theorem ringFull_iff (s : State) : s.ringFull = true ↔ s.cfg.ringNext s.rbHead = s.rbTail := by
  simp [State.ringFull]

/-- Empty is no unread byte (R25). -/
theorem ringEmpty_iff_count {s : State} (hh : s.rbHead < s.cfg.rbSize) (ht : s.rbTail < s.cfg.rbSize) :
    s.ringEmpty = true ↔ s.ringCount = 0 := by
  rw [ringEmpty_iff, ringCount_eq hh ht]
  split <;> omega

/-- Full is `RB_SIZE - 1` unread bytes (R102). -/
theorem ringFull_iff_count {s : State} (hh : s.rbHead < s.cfg.rbSize) (ht : s.rbTail < s.cfg.rbSize) :
    s.ringFull = true ↔ s.ringCount + 1 = s.cfg.rbSize := by
  rw [ringFull_iff, ringCount_eq hh ht, Config.ringNext_of_lt hh]
  split <;> split <;> omega

/-- No unread byte stands in the slot written next (R102). -/
theorem unreadSlot_ne_head {s : State} {k : Nat} (hh : s.rbHead < s.cfg.rbSize)
    (ht : s.rbTail < s.cfg.rbSize) (hk : k < s.ringCount) : s.unreadSlot k ≠ s.rbHead := by
  have hlt : s.ringCount < s.cfg.rbSize := ringCount_lt (by omega)
  rw [ringCount_eq hh ht] at hk hlt
  rw [unreadSlot_eq ht (by omega)]
  split at hk <;> split <;> omega

@[simp] theorem unread_length (s : State) : s.unread.length = s.ringCount := by
  simp [State.unread]

/-- The next byte is written to the slot after the last unread one. -/
theorem unreadSlot_ringCount {s : State} (hh : s.rbHead < s.cfg.rbSize) (ht : s.rbTail < s.cfg.rbSize) :
    s.unreadSlot s.ringCount = s.rbHead := by
  have hlt : s.ringCount < s.cfg.rbSize := ringCount_lt (by omega)
  rw [unreadSlot_eq ht hlt, ringCount_eq hh ht]
  split_ifs <;> omega

/-- A write changes one slot of the ring, and no other slot. -/
theorem slot_ringPut (s : State) (b : Byte) (a : ArrayId) (i : Nat) :
    (s.ringPut b).slot a i = if a = .rbBuf ∧ i = s.rbHead then b else s.slot a i := by
  cases a <;> simp [State.slot, Memory.lookup_set]
  split <;> simp

theorem ringPut_tail_lt {s : State} {b : Byte} (ht : s.rbTail < s.cfg.rbSize) :
    (s.ringPut b).rbTail < s.cfg.rbSize := by
  simp only [ringPut_rbTail]
  split
  · exact Config.ringNext_lt ht
  · exact ht

/-- A write adds one unread byte, and on a full ring drops one (R103). -/
theorem ringCount_ringPut {s : State} {b : Byte} (h2 : 2 ≤ s.cfg.rbSize) (hh : s.rbHead < s.cfg.rbSize)
    (ht : s.rbTail < s.cfg.rbSize) :
    (s.ringPut b).ringCount = if s.ringFull then s.ringCount else s.ringCount + 1 := by
  rw [ringCount_eq (s := s.ringPut b) (Config.ringNext_lt hh) (ringPut_tail_lt ht), ringCount_eq hh ht]
  simp only [ringPut_rbHead, ringPut_rbTail, ringPut_cfg, ringFull, decide_eq_true_eq]
  rw [Config.ringNext_of_lt hh, Config.ringNext_of_lt ht]
  split_ifs <;> omega

/-- The unread bytes' slots after a write: the same, or one further on when the oldest was dropped. -/
theorem unreadSlot_ringPut (s : State) (b : Byte) (k : Nat) :
    (s.ringPut b).unreadSlot k = if s.ringFull then s.unreadSlot (k + 1) else s.unreadSlot k := by
  unfold State.unreadSlot
  split <;> simp [*, Config.ringNext, Nat.add_assoc, Nat.add_comm 1]

/-- A read takes one unread byte. -/
theorem ringCount_ringAdvance {s : State} (hh : s.rbHead < s.cfg.rbSize) (ht : s.rbTail < s.cfg.rbSize)
    (hne : s.rbHead ≠ s.rbTail) : s.ringCount = s.ringAdvance.ringCount + 1 := by
  have h1 : s.ringAdvance.ringCount = if s.cfg.ringNext s.rbTail ≤ s.rbHead
      then s.rbHead - s.cfg.ringNext s.rbTail else s.rbHead + s.cfg.rbSize - s.cfg.ringNext s.rbTail :=
    ringCount_eq (s := s.ringAdvance) hh (Config.ringNext_lt ht)
  rw [h1, ringCount_eq hh ht, Config.ringNext_of_lt ht]
  split_ifs <;> omega

theorem unreadSlot_ringAdvance (s : State) (k : Nat) :
    s.ringAdvance.unreadSlot k = s.unreadSlot (k + 1) := by
  simp [State.unreadSlot, Config.ringNext, Nat.add_assoc, Nat.add_comm 1]

/-- What RB_READ's advance does to the unread bytes. -/
theorem unread_ringAdvance {s : State} (hh : s.rbHead < s.cfg.rbSize) (ht : s.rbTail < s.cfg.rbSize)
    (hne : s.rbHead ≠ s.rbTail) : s.unread = s.slot .rbBuf s.rbTail :: s.ringAdvance.unread := by
  unfold State.unread
  rw [ringCount_ringAdvance hh ht hne, List.range_succ_eq_map, List.map_cons, List.map_map]
  congr 1
  · simp [State.unreadSlot, Nat.mod_eq_of_lt ht]
  · refine List.map_congr_left fun k _ => ?_
    simp only [Function.comp, Nat.succ_eq_add_one, unreadSlot_ringAdvance]
    exact State.slot_congr rfl rfl _

theorem unread_of_empty {s : State} (hh : s.rbHead < s.cfg.rbSize) (ht : s.rbTail < s.cfg.rbSize)
    (he : s.rbHead = s.rbTail) : s.unread = [] := by
  rw [← List.length_eq_zero_iff, unread_length]
  exact (ringEmpty_iff_count hh ht).1 ((ringEmpty_iff s).2 he)

/-- What RB_WRITE does to the unread bytes (R102). -/
theorem unread_ringPut {s : State} (h2 : 2 ≤ s.cfg.rbSize) (hh : s.rbHead < s.cfg.rbSize)
    (ht : s.rbTail < s.cfg.rbSize) (b : Byte) :
    (s.ringPut b).unread = (if s.ringFull then s.unread.tail else s.unread) ++ [b] := by
  have hold : ∀ k, k < s.ringCount →
      (s.ringPut b).slot .rbBuf (s.unreadSlot k) = s.slot .rbBuf (s.unreadSlot k) := fun k hk => by
    rw [slot_ringPut, if_neg fun h => unreadSlot_ne_head hh ht hk h.2]
  have hnew : (s.ringPut b).slot .rbBuf (s.unreadSlot s.ringCount) = b := by
    rw [slot_ringPut, if_pos ⟨rfl, unreadSlot_ringCount hh ht⟩]
  have hput : (s.ringPut b).unread = (List.range (s.ringPut b).ringCount).map fun k =>
      (s.ringPut b).slot .rbBuf ((s.ringPut b).unreadSlot k) := rfl
  rw [hput, ringCount_ringPut h2 hh ht]
  by_cases hf : s.ringFull = true
  · obtain ⟨n, hn⟩ : ∃ n, s.ringCount = n + 1 :=
      ⟨s.ringCount - 1, by have := (ringFull_iff_count hh ht).1 hf; omega⟩
    have htail : s.unread.tail = (List.range n).map fun k => s.slot .rbBuf (s.unreadSlot (k + 1)) := by
      simp [State.unread, hn, List.range_succ_eq_map]
    rw [if_pos hf, if_pos hf, htail, hn, List.range_succ, List.map_append]
    congr 1
    · refine List.map_congr_left fun k hk => ?_
      rw [unreadSlot_ringPut, if_pos hf]
      exact hold _ (by have := List.mem_range.1 hk; omega)
    · rw [List.map_cons, List.map_nil, unreadSlot_ringPut, if_pos hf, ← hn, hnew]
  · rw [if_neg hf, if_neg hf, List.range_succ, List.map_append]
    congr 1
    · refine List.map_congr_left fun k hk => ?_
      rw [unreadSlot_ringPut, if_neg hf]
      exact hold _ (List.mem_range.1 hk)
    · rw [List.map_cons, List.map_nil, unreadSlot_ringPut, if_neg hf, hnew]

end Sys2Proof.Machine.State

namespace Sys2Proof.Machine

/-- RB_WRITE answers exactly when the indices are in range. -/
theorem ringWrite_ok_iff {b : Byte} {s t : State} :
    ringWrite b s = .ok t ↔ (s.rbHead < s.cfg.rbSize ∧ s.rbTail < s.cfg.rbSize) ∧ t = s.ringPut b := by
  unfold ringWrite
  rw [← State.ringIndicesInRange_iff]
  by_cases hr : s.ringIndicesInRange = true
  · simp only [hr, if_true, Except.ok.injEq, true_and]
    exact eq_comm
  · simp [hr]

/-- With the indices in range, RB_READ on an empty ring answers nothing and changes nothing. -/
theorem ringRead_of_empty {s : State} (hr : s.ringIndicesInRange = true) (he : s.rbHead = s.rbTail) :
    ringRead s = .ok (none, s) := by
  simp [ringRead, hr, State.ringEmpty, he]

/-- With the indices in range, RB_READ on a ring that is not empty answers the byte at the tail. -/
theorem ringRead_of_nonempty {s : State} (hr : s.ringIndicesInRange = true) (he : s.rbHead ≠ s.rbTail) :
    ringRead s = .ok (some (s.slot .rbBuf s.rbTail), s.ringAdvance) := by
  simp [ringRead, hr, State.ringEmpty, he]

theorem ringRead_of_out_of_range {s : State} (hr : ¬ s.ringIndicesInRange = true) :
    ringRead s = .error .ringIndexOutOfRange := by
  simp [ringRead, hr]

/-- What RB_READ can answer: nothing and no change, or the byte at the tail, consumed. -/
theorem ringRead_ok_cases {s t : State} {r : Option Byte} (h : ringRead s = .ok (r, t)) :
    s.ringIndicesInRange = true ∧
      ((s.rbHead = s.rbTail ∧ r = none ∧ t = s) ∨
       (s.rbHead ≠ s.rbTail ∧ r = some (s.slot .rbBuf s.rbTail) ∧ t = s.ringAdvance)) := by
  by_cases hr : s.ringIndicesInRange = true
  · by_cases he : s.rbHead = s.rbTail
    · rw [ringRead_of_empty hr he] at h
      cases h
      exact ⟨hr, .inl ⟨he, rfl, rfl⟩⟩
    · rw [ringRead_of_nonempty hr he] at h
      cases h
      exact ⟨hr, .inr ⟨he, rfl, rfl⟩⟩
  · rw [ringRead_of_out_of_range hr] at h
    cases h

theorem ringRead_error_cases {s : State} {f : Fault} (h : ringRead s = .error f) :
    ¬ s.ringIndicesInRange = true ∧ f = .ringIndexOutOfRange := by
  by_cases hr : s.ringIndicesInRange = true
  · by_cases he : s.rbHead = s.rbTail
    · rw [ringRead_of_empty hr he] at h
      cases h
    · rw [ringRead_of_nonempty hr he] at h
      cases h
  · rw [ringRead_of_out_of_range hr] at h
    cases h
    exact ⟨hr, rfl⟩

end Sys2Proof.Machine
end

