-- ==== Sys2Proof/Laws/Parser.lean ====
section
/-! SUPPORT. The laws of the parser: the encoding of its states (30_encoding.md R77), one inversion
lemma for PARSE_STEP that says everything it can do (43_parser.md R169), and its frame. -/

namespace Sys2Proof.Machine

namespace ParserState

@[simp] theorem ofCode_code (p : ParserState) : ofCode p.code = some p := by
  cases p <;> rfl

theorem code_injective {p q : ParserState} (h : p.code = q.code) : p = q := by
  have := congrArg ofCode h
  simpa using this

theorem ofCode_eq_some_iff {v : BitVec 3} {p : ParserState} : ofCode v = some p ↔ v = p.code := by
  constructor
  · revert v
    cases p <;> decide
  · rintro rfl
    simp

end ParserState

/-- A state is in one parser state at most. -/
theorem State.inState_unique {s : State} {p q : ParserState} (hp : s.inState p) (hq : s.inState q) :
    p = q :=
  ParserState.code_injective (hp.symm.trans hq)

theorem storePayload_ok_cases {n b : Byte} {s t : State} (h : storePayload n b s = .ok t) :
    n.toNat < s.cfg.maxDataLength ∧
      t = { s with
            pBuf := s.pBuf.set n.toNat b, pReceived := n + 1, pSum := s.pSum + b,
            pState := ParserState.dataReceiving.code } := by
  unfold storePayload at h
  split at h
  · cases h
    exact ⟨‹_›, rfl⟩
  · cases h

theorem publish_ok_cases {s t : State} (h : publish s = .ok t) :
    s.pExpected.toNat ≤ s.cfg.maxDataLength ∧
      t = { s with
            ibBuf := s.ibBuf.fill (s.slot .pBuf) s.pExpected.toNat, ibLen := s.pExpected,
            ibReady := true, pState := ParserState.frameComplete.code, pCsOk := false } := by
  unfold publish at h
  split at h
  · cases h
    exact ⟨‹_›, rfl⟩
  · cases h

/-- The thirteen transitions of R169, as a relation between the state before, the byte, the answer and
the state after. -/
inductive ParseCase (b : Byte) (s : State) : Bool → State → Prop
  | r152 : s.inState .idle → b = s.cfg.headByte →
      ParseCase b s false { s with pState := ParserState.headFound.code, pReceived := 0, pCsOk := false }
  | r153 : s.inState .idle → b ≠ s.cfg.headByte → ParseCase b s false s
  | r154 : s.inState .headFound → b.toNat ≤ s.cfg.maxDataLength →
      ParseCase b s false
        { s with pState := ParserState.lengthReceived.code, pExpected := b, pSum := b }
  | r155 : s.inState .headFound → ¬ b.toNat ≤ s.cfg.maxDataLength → ParseCase b s false s.resync
  | r156 : s.inState .lengthReceived → s.pExpected = 0 → b = checksum [s.pExpected] →
      ParseCase b s false { s with pState := ParserState.dataReceiving.code, pCsOk := true }
  | r157 : s.inState .lengthReceived → s.pExpected = 0 → b ≠ checksum [s.pExpected] →
      ParseCase b s false s.resync
  | r158 : s.inState .lengthReceived → s.pExpected ≠ 0 → 0 < s.cfg.maxDataLength →
      ParseCase b s false
        { s with
          pBuf := s.pBuf.set 0 b, pReceived := 1, pSum := s.pSum + b,
          pState := ParserState.dataReceiving.code }
  | r159 : s.inState .dataReceiving → s.pCsOk = false → s.pReceived < s.pExpected →
      s.pReceived.toNat < s.cfg.maxDataLength →
      ParseCase b s false
        { s with
          pBuf := s.pBuf.set s.pReceived.toNat b, pReceived := s.pReceived + 1, pSum := s.pSum + b,
          pState := ParserState.dataReceiving.code }
  | r160 : s.inState .dataReceiving → s.pCsOk = false → ¬ s.pReceived < s.pExpected → b = s.pSum →
      ParseCase b s false { s with pCsOk := true }
  | r162 : s.inState .dataReceiving → s.pCsOk = false → ¬ s.pReceived < s.pExpected → b ≠ s.pSum →
      ParseCase b s false s.resync
  | r161 : s.inState .dataReceiving → s.pCsOk = true → b = s.cfg.tailByte →
      s.pExpected.toNat ≤ s.cfg.maxDataLength →
      ParseCase b s true
        { s with
          ibBuf := s.ibBuf.fill (s.slot .pBuf) s.pExpected.toNat, ibLen := s.pExpected,
          ibReady := true, pState := ParserState.frameComplete.code, pCsOk := false }
  | r164 : s.inState .dataReceiving → s.pCsOk = true → b ≠ s.cfg.tailByte → ParseCase b s false s.resync
  | r165 : s.inState .frameComplete → ParseCase b s false s

theorem except_map_ok {α β : Type} {f : α → β} {x : Except Fault α} {y : β}
    (h : x.map f = .ok y) : ∃ a, x = .ok a ∧ y = f a := by
  cases x with
  | error e => cases h
  | ok a => cases h; exact ⟨a, rfl, rfl⟩

/-- Everything PARSE_STEP can do. -/
theorem parseByte_cases {b : Byte} {s t : State} {ready : Bool} (h : parseByte b s = .ok (ready, t)) :
    ParseCase b s ready t := by
  unfold parseByte at h
  split at h
  · next hp =>
    have hs : s.inState .idle := ParserState.ofCode_eq_some_iff.1 hp
    unfold parseIdle noFrame at h
    split at h <;> cases h
    · exact .r152 hs ‹_›
    · exact .r153 hs ‹_›
  · next hp =>
    have hs : s.inState .headFound := ParserState.ofCode_eq_some_iff.1 hp
    simp only [parseHeadFound, noFrame, Config.lenLegal, decide_eq_true_eq] at h
    split at h <;> cases h
    · exact .r154 hs ‹_›
    · exact .r155 hs ‹_›
  · next hp =>
    have hs : s.inState .lengthReceived := ParserState.ofCode_eq_some_iff.1 hp
    unfold parseLengthReceived noFrame at h
    split at h
    · split at h <;> cases h
      · exact .r156 hs ‹_› ‹_›
      · exact .r157 hs ‹_› ‹_›
    · obtain ⟨u, hu, heq⟩ := except_map_ok h
      cases heq
      obtain ⟨hn, rfl⟩ := storePayload_ok_cases hu
      exact .r158 hs ‹_› hn
  · next hp =>
    have hs : s.inState .dataReceiving := ParserState.ofCode_eq_some_iff.1 hp
    unfold parseDataReceiving noFrame at h
    split at h
    · next hc =>
      simp only [State.payloadOpen, decide_eq_true_eq] at h
      split at h
      · obtain ⟨u, hu, heq⟩ := except_map_ok h
        cases heq
        obtain ⟨hn, rfl⟩ := storePayload_ok_cases hu
        exact .r159 hs hc ‹_› hn
      · split at h <;> cases h
        · exact .r160 hs hc ‹_› ‹_›
        · exact .r162 hs hc ‹_› ‹_›
    · next hc =>
      have hc' : s.pCsOk = true := by simpa using hc
      split at h
      · obtain ⟨u, hu, heq⟩ := except_map_ok h
        cases heq
        obtain ⟨hn, rfl⟩ := publish_ok_cases hu
        exact .r161 hs hc' ‹_› hn
      · cases h
        exact .r164 hs hc' ‹_›
  · next hp =>
    cases h
    exact .r165 (ParserState.ofCode_eq_some_iff.1 hp)
  · cases h

theorem parseByte_of_state {b : Byte} {s : State} {p : ParserState} (h : s.inState p) :
    parseByte b s = match p with
      | .idle           => parseIdle b s
      | .headFound      => parseHeadFound b s
      | .lengthReceived => parseLengthReceived b s
      | .dataReceiving  => parseDataReceiving b s
      | .frameComplete  => noFrame s := by
  unfold parseByte
  rw [ParserState.ofCode_eq_some_iff.2 h]
  cases p <;> rfl

/-- Each of the thirteen transitions is what PARSE_STEP answers. -/
theorem parseByte_of_case {b : Byte} {s t : State} {ready : Bool} (h : ParseCase b s ready t) :
    parseByte b s = .ok (ready, t) := by
  cases h with
  | r152 hs hb => rw [parseByte_of_state hs]; exact if_pos hb
  | r153 hs hb => rw [parseByte_of_state hs]; exact if_neg hb
  | r154 hs hb => rw [parseByte_of_state hs]; exact if_pos (decide_eq_true hb)
  | r155 hs hb => rw [parseByte_of_state hs]; exact if_neg (by simpa [Config.lenLegal] using hb)
  | r156 hs he hb => rw [parseByte_of_state hs]; exact (if_pos he).trans (if_pos hb)
  | r157 hs he hb => rw [parseByte_of_state hs]; exact (if_pos he).trans (if_neg hb)
  | r158 hs he hm =>
    rw [parseByte_of_state hs]
    refine (if_neg he).trans ?_
    have : storePayload 0 b s = _ := if_pos hm
    rw [this]
    rfl
  | r159 hs hc ho hm =>
    rw [parseByte_of_state hs]
    refine (if_pos hc).trans ((if_pos (decide_eq_true ho)).trans ?_)
    have : storePayload s.pReceived b s = _ := if_pos hm
    rw [this]
    rfl
  | r160 hs hc ho hb =>
    rw [parseByte_of_state hs]
    exact (if_pos hc).trans ((if_neg (by simpa [State.payloadOpen] using ho)).trans (if_pos hb))
  | r162 hs hc ho hb =>
    rw [parseByte_of_state hs]
    exact (if_pos hc).trans ((if_neg (by simpa [State.payloadOpen] using ho)).trans (if_neg hb))
  | r161 hs hc hb hm =>
    rw [parseByte_of_state hs]
    refine (if_neg (by simp [hc])).trans ((if_pos hb).trans ?_)
    have : publish s = _ := if_pos hm
    rw [this]
    rfl
  | r164 hs hc hb =>
    rw [parseByte_of_state hs]
    exact (if_neg (by simp [hc])).trans (if_neg hb)
  | r165 hs => rw [parseByte_of_state hs]; rfl

/-- PARSE_STEP touches the parser and the Inbox only: the ring, the Consumer port, the parameters and
the model's own fields keep their values. -/
theorem ParseCase.frame {b : Byte} {s t : State} {ready : Bool} (h : ParseCase b s ready t) :
    t.cfg = s.cfg ∧ t.rbBuf = s.rbBuf ∧ t.rbHead = s.rbHead ∧ t.rbTail = s.rbTail ∧ t.cOp = s.cOp ∧
      t.cSend = s.cSend ∧ t.sinkAnswer = s.sinkAnswer ∧ t.outputs = s.outputs ∧
      t.schedule = s.schedule ∧ t.draw = s.draw ∧ t.turn = s.turn := by
  cases h <;> simp

/-- The faults of PARSE_STEP: an illegal `p_state`, or a slot out of range. -/
theorem parseByte_error_cases {b : Byte} {s : State} {f : Fault} (h : parseByte b s = .error f) :
    (ParserState.ofCode s.pState = none ∧ f = .parserStateIllegal) ∨
    (f = .slotOutOfRange ∧
      ((s.inState .lengthReceived ∧ s.pExpected ≠ 0 ∧ s.cfg.maxDataLength = 0) ∨
       (s.inState .dataReceiving ∧ s.pCsOk = false ∧ s.pReceived < s.pExpected ∧
         s.cfg.maxDataLength ≤ s.pReceived.toNat) ∨
       (s.inState .dataReceiving ∧ s.pCsOk = true ∧ s.cfg.maxDataLength < s.pExpected.toNat))) := by
  unfold parseByte at h
  split at h
  · unfold parseIdle noFrame at h
    split at h <;> cases h
  · unfold parseHeadFound noFrame at h
    split at h <;> cases h
  · next hp =>
    have hs : s.inState .lengthReceived := ParserState.ofCode_eq_some_iff.1 hp
    unfold parseLengthReceived noFrame storePayload at h
    split at h
    · split at h <;> cases h
    · split at h <;> cases h
      refine .inr ⟨rfl, .inl ⟨hs, ‹_›, ?_⟩⟩
      simp at *
      assumption
  · next hp =>
    have hs : s.inState .dataReceiving := ParserState.ofCode_eq_some_iff.1 hp
    simp only [parseDataReceiving, noFrame, storePayload, publish, State.payloadOpen,
      decide_eq_true_eq] at h
    split at h
    · next hc =>
      split at h
      · next hopen =>
        split at h <;> cases h
        exact .inr ⟨rfl, .inr (.inl ⟨hs, hc, hopen, by omega⟩)⟩
      · split at h <;> cases h
    · next hc =>
      split at h
      · split at h <;> cases h
        exact .inr ⟨rfl, .inr (.inr ⟨hs, by simpa using hc, by omega⟩)⟩
      · cases h
  · cases h
  · next hp =>
    cases h
    exact .inl ⟨hp, rfl⟩

end Sys2Proof.Machine
end

