-- ==== Sys2Proof/Laws/Invariant.lean ====
section
/-! SUPPORT. The parts of the invariant (Safety.lean): which fields each depends on, what the parser's
part asks in each parser state, and that the ring's operations keep the ring's part. -/

namespace Sys2Proof.Machine

/-! ### Which fields each part depends on -/

theorem State.RingInv.congr {s t : State} (h : s.RingInv) (hcfg : t.cfg = s.cfg) (hbuf : t.rbBuf = s.rbBuf)
    (hhead : t.rbHead = s.rbHead) (htail : t.rbTail = s.rbTail) : t.RingInv := by
  obtain ⟨hh, ht, hw⟩ := h
  constructor
  · rwa [hhead, hcfg]
  · rwa [htail, hcfg]
  · simpa [State.ringCount, State.unreadSlot, State.written, hcfg, hbuf, hhead, htail] using hw

theorem State.arrays_congr {s t : State} (h : ∀ a, s.arrayOk a) (hcfg : t.cfg = s.cfg)
    (hr : t.rbBuf = s.rbBuf) (hp : t.pBuf = s.pBuf) (hi : t.ibBuf = s.ibBuf) : ∀ a, t.arrayOk a := by
  intro a
  have ha : t.array a = s.array a := by cases a <;> assumption
  unfold State.arrayOk
  rw [ha, hcfg]
  exact h a

theorem State.ParserInv.congr {s t : State} (h : s.ParserInv) (hcfg : t.cfg = s.cfg)
    (hst : t.pState = s.pState) (he : t.pExpected = s.pExpected) (hr : t.pReceived = s.pReceived)
    (hs : t.pSum = s.pSum) (hc : t.pCsOk = s.pCsOk) (hb : t.pBuf = s.pBuf) (hd : t.draw = s.draw) :
    t.ParserInv := by
  have hpay : t.payloadSoFar = s.payloadSoFar := by
    unfold State.payloadSoFar
    rw [hr]
    exact State.slots_congr fun i _ => State.slot_congr (a := .pBuf) hb hd i
  have hin : ∀ p, t.inState p = s.inState p := fun p => by rw [State.inState, hst, State.inState]
  have hw : ∀ i, t.written .pBuf i = s.written .pBuf i := fun i => by simp [State.written, hb]
  obtain ⟨a, b, c, d, e, f, g, i, j, k, l⟩ := h
  constructor <;> simp only [hin, hw, hcfg, hst, he, hr, hs, hc, hpay] <;> assumption

theorem State.InboxInv.congr {s t : State} (h : s.InboxInv) (hr : t.ibReady = s.ibReady)
    (hl : t.ibLen = s.ibLen) (hb : t.ibBuf = s.ibBuf) (hst : t.pState = s.pState)
    (he : t.pExpected = s.pExpected) (hp : t.pBuf = s.pBuf) : t.InboxInv := by
  obtain ⟨a, b, c⟩ := h
  constructor <;> simp only [State.inState, hr, hl, hb, hst, he, hp] <;> assumption

/-! ### What the parser's part asks in each parser state -/

theorem State.ParserInv.of_idle {t : State} (h : t.inState .idle) (hc : t.pCsOk = false) : t.ParserInv := by
  simp only [State.inState] at h
  constructor <;> simp [State.inState, h, hc, ParserState.code, ParserState.ofCode]

theorem State.ParserInv.of_headFound {t : State} (h : t.inState .headFound) (hc : t.pCsOk = false)
    (hr : t.pReceived = 0) : t.ParserInv := by
  simp only [State.inState] at h
  constructor <;> simp [State.inState, h, hc, hr, ParserState.code, ParserState.ofCode]

theorem State.ParserInv.of_lengthReceived {t : State} (h : t.inState .lengthReceived)
    (hc : t.pCsOk = false) (hr : t.pReceived = 0) (he : t.pExpected.toNat ≤ t.cfg.maxDataLength)
    (hs : t.pSum = t.pExpected) : t.ParserInv := by
  simp only [State.inState] at h
  constructor <;>
    simp [State.inState, h, hc, hr, he, hs, ParserState.code, ParserState.ofCode, State.payloadSoFar,
      State.slots]

theorem State.ParserInv.of_dataReceiving {t : State} (h : t.inState .dataReceiving)
    (he : t.pExpected.toNat ≤ t.cfg.maxDataLength) (hle : t.pReceived ≤ t.pExpected)
    (hpos : 1 ≤ t.pExpected → 1 ≤ t.pReceived) (hall : t.pCsOk = true → t.pReceived = t.pExpected)
    (hs : t.pSum = checksum (t.pExpected :: t.payloadSoFar))
    (hw : ∀ i, i < t.pReceived.toNat → t.written .pBuf i) : t.ParserInv := by
  have hno : ∀ p, t.inState p → p = .dataReceiving := fun p hp => State.inState_unique hp h
  refine ⟨fun _ => h, fun _ => he, fun hp => ?_, fun hp => ?_, fun _ => hle, fun _ => hpos,
    fun _ => hall, fun _ => hs, ?_, fun _ => hw, fun hp => ?_⟩
  · cases hno _ hp
  · cases hno _ hp
  · rw [show t.pState = _ from h]
    rfl
  · cases hno _ hp

theorem State.ParserInv.of_frameComplete {t : State} (h : t.inState .frameComplete)
    (hc : t.pCsOk = false) (he : t.pExpected.toNat ≤ t.cfg.maxDataLength)
    (hw : ∀ i, i < t.pExpected.toNat → t.written .pBuf i) : t.ParserInv := by
  constructor
  case expected_written => exact fun _ => hw
  all_goals
    simp only [State.inState] at h
    simp [State.inState, h, hc, he, ParserState.code, ParserState.ofCode]

theorem State.InboxInv.of_nothing_pending {t : State} (hr : t.ibReady = false)
    (h : ¬ t.inState .frameComplete) : t.InboxInv := by
  constructor <;> simp [hr, h]

/-- Nothing is pending outside FrameComplete. -/
theorem State.InboxInv.ready_eq_false {s : State} {p : ParserState} (hi : s.InboxInv) (h : s.inState p)
    (hp : p ≠ .frameComplete) : s.ibReady = false := by
  cases hr : s.ibReady
  · rfl
  · exact absurd (State.inState_unique h (hi.ready_iff.1 hr)) hp

/-- The checksum is accepted in DataReceiving only. -/
theorem State.ParserInv.csOk_eq_false {s : State} {p : ParserState} (hi : s.ParserInv) (h : s.inState p)
    (hp : p ≠ .dataReceiving) : s.pCsOk = false := by
  cases hr : s.pCsOk
  · rfl
  · exact absurd (State.inState_unique h (hi.csOk_receiving hr)) hp

/-! ### The ring's part -/

theorem State.RingInv.ringPut {s : State} (b : Byte) (h2 : 2 ≤ s.cfg.rbSize) (h : s.RingInv) :
    (s.ringPut b).RingInv := by
  obtain ⟨hh, ht, hw⟩ := h
  refine ⟨Config.ringNext_lt hh, State.ringPut_tail_lt ht, fun k hk => ?_⟩
  have hold : ∀ j, j ≤ s.ringCount → (s.ringPut b).written .rbBuf (s.unreadSlot j) := fun j hj => by
    show ((s.rbBuf.set s.rbHead b).lookup (s.unreadSlot j)).isSome = true
    rw [Memory.lookup_set]
    split
    · rfl
    · next hne =>
      refine hw j (lt_of_le_of_ne hj fun h => hne ?_)
      rw [h, State.unreadSlot_ringCount hh ht]
  rw [State.ringCount_ringPut h2 hh ht] at hk
  rw [State.unreadSlot_ringPut]
  split at hk
  · next hf =>
    rw [if_pos hf]
    exact hold _ hk
  · next hf =>
    rw [if_neg hf]
    exact hold _ (by omega)

theorem State.RingInv.ringAdvance {s : State} (h : s.RingInv) (hne : s.rbHead ≠ s.rbTail) :
    s.ringAdvance.RingInv := by
  obtain ⟨hh, ht, hw⟩ := h
  refine ⟨hh, Config.ringNext_lt ht, fun k hk => ?_⟩
  have hc := State.ringCount_ringAdvance hh ht hne
  have hk' := hw (k + 1) (by omega)
  unfold State.written at *
  rw [State.unreadSlot_ringAdvance]
  exact hk'

/-- A slot that has been written reads the same whatever the draw of the free values. -/
theorem State.slot_draw_of_written {s : State} {a : ArrayId} {i : Nat} (d : Nat) (h : s.written a i) :
    ({ s with draw := d } : State).slot a i = s.slot a i := by
  obtain ⟨v, hv⟩ := Option.isSome_iff_exists.1 h
  have hv' : (({ s with draw := d } : State).array a).lookup i = some v := by
    cases a <;> exact hv
  rw [State.slot_of_lookup hv, State.slot_of_lookup hv']

end Sys2Proof.Machine
end

