-- ==== Sys2Proof/Laws/PerInstr.lean ====
section
/-! SUPPORT. Per-operation laws. Family OpcodeRow: the word an operation is encoded to, on the port it is
encoded for, is a word of exactly one row of spec/opcode_table.json, the row of its own mnemonic
(30_encoding.md R80). -/

namespace Sys2Proof.Laws.OpcodeRow

/-- The mnemonic of an operation's row. -/
def mnemonic : Instr → String
  | .rbWrite _   => "RB_WRITE"
  | .rbRead      => "RB_READ"
  | .rbAvailable => "RB_AVAILABLE"
  | .checksum _  => "CHECKSUM"
  | .encode _    => "ENCODE"
  | .send _ _    => "SEND"
  | .parseStep _ => "PARSE_STEP"
  | .process     => "PROCESS"
  | .takeFrame   => "TAKE_FRAME"
  | .init        => "INIT"
  | .startRx     => "START_RX"
  | .stopRx      => "STOP_RX"

/-- The mnemonics of the rows that admit a word on a port. -/
def rowsOf (p : Port) (w : CmdWord) : List String :=
  (opcodeTable.filter fun row => row.admits p w).map TableRow.mnemonic

def Statement (i : Instr) : Prop := rowsOf (Sys2Proof.encode i).port (Sys2Proof.encode i).word = [mnemonic i]

theorem rbWrite (b : Byte) : Statement (.rbWrite b) := by
  show rowsOf .producer (cmdWord 0x1 b) = ["RB_WRITE"]
  revert b
  decide

theorem rbRead : Statement .rbRead := by
  show rowsOf .consumer (cmdWord 0x2 0) = ["RB_READ"]
  decide

theorem rbAvailable : Statement .rbAvailable := by
  show rowsOf .consumer (cmdWord 0x3 0) = ["RB_AVAILABLE"]
  decide

theorem checksum (span : List Byte) : Statement (.checksum span) := by
  show rowsOf .consumer (cmdWord 0x4 0) = ["CHECKSUM"]
  decide

theorem encode (payload : List Byte) : Statement (.encode payload) := by
  show rowsOf .consumer (cmdWord 0x5 0) = ["ENCODE"]
  decide

theorem send (payload : List Byte) (timeout : Timeout) : Statement (.send payload timeout) := by
  show rowsOf .consumer (cmdWord 0x6 0) = ["SEND"]
  decide

theorem parseStep (b : Byte) : Statement (.parseStep b) := by
  show rowsOf .consumer (cmdWord 0x7 b) = ["PARSE_STEP"]
  revert b
  decide

theorem process : Statement .process := by
  show rowsOf .consumer (cmdWord 0x8 0) = ["PROCESS"]
  decide

theorem takeFrame : Statement .takeFrame := by
  show rowsOf .consumer (cmdWord 0x9 0) = ["TAKE_FRAME"]
  decide

theorem init : Statement .init := by
  show rowsOf .consumer (cmdWord 0xA 0) = ["INIT"]
  decide

theorem startRx : Statement .startRx := by
  show rowsOf .consumer (cmdWord 0xB 0) = ["START_RX"]
  decide

theorem stopRx : Statement .stopRx := by
  show rowsOf .consumer (cmdWord 0xC 0) = ["STOP_RX"]
  decide

end Sys2Proof.Laws.OpcodeRow
end

