-- ==== Sys2Proof/Laws/Step.lean ====
section
/-! SUPPORT. What one step can do, said once: the guards of the two ports, every next state of every
operation, of the micro-steps and of the Sink's part, and where the machine's step comes from. -/

namespace Sys2Proof.Machine

/-! ### The guards -/

theorem inLegalBuild_of_legal {s : State} (h : s.cfg.legal = true) (k : Result) :
    inLegalBuild s k = k := by
  simp [inLegalBuild, h]

theorem inLegalBuild_next_iff {s t : State} {k : Result} :
    inLegalBuild s k = .next t ↔ s.cfg.legal = true ∧ k = .next t := by
  unfold inLegalBuild
  split <;> simp_all

theorem inLegalBuild_fault_iff {s : State} {f : Fault} {k : Result} :
    inLegalBuild s k = .fault f ↔ s.cfg.legal = true ∧ k = .fault f := by
  unfold inLegalBuild
  split <;> simp_all

theorem onConsumerPort_of_free {s : State} (hl : s.cfg.legal = true) (hc : s.cOp = .none) (k : Result) :
    onConsumerPort s k = k := by
  simp [onConsumerPort, inLegalBuild, hl, hc]

theorem onConsumerPort_next_iff {s t : State} {k : Result} :
    onConsumerPort s k = .next t ↔ s.cfg.legal = true ∧ s.cOp = .none ∧ k = .next t := by
  unfold onConsumerPort
  rw [inLegalBuild_next_iff]
  split <;> simp_all

theorem onConsumerPort_fault_iff {s : State} {f : Fault} {k : Result} :
    onConsumerPort s k = .fault f ↔ s.cfg.legal = true ∧ s.cOp = .none ∧ k = .fault f := by
  unfold onConsumerPort
  rw [inLegalBuild_fault_iff]
  split <;> simp_all

theorem onProducerPort_next_iff {s t : State} {k : Result} :
    onProducerPort s k = .next t ↔ s.cfg.legal = true ∧ k = .next t :=
  inLegalBuild_next_iff

/-! ### The operations -/

/-- Every next state an operation can give, with what has to hold for it. -/
inductive ExecCase (s : State) : Instr → State → Prop
  | rbWrite (b : Byte) : s.ringIndicesInRange = true → ExecCase s (.rbWrite b) (s.ringPut b)
  | rbReadNone : s.ringIndicesInRange = true → s.rbHead = s.rbTail →
      ExecCase s .rbRead (s.emit (.rbRead false 0))
  | rbReadSome : s.ringIndicesInRange = true → s.rbHead ≠ s.rbTail →
      ExecCase s .rbRead (s.ringAdvance.emit (.rbRead true (s.slot .rbBuf s.rbTail)))
  | rbAvailable : s.ringIndicesInRange = true →
      ExecCase s .rbAvailable (s.emit (.rbAvailable (!s.ringEmpty)))
  | checksum (span : List Byte) :
      ExecCase s (.checksum span) (s.emit (.checksum (Machine.checksum span)))
  | encode (p : List Byte) : s.cfg.fits p = true →
      ExecCase s (.encode p) (s.emit (.encode .ok (some (encodeFrame s.cfg p))))
  | encodeTooLarge (p : List Byte) : ¬ s.cfg.fits p = true →
      ExecCase s (.encode p) (s.emit (.encode .payloadTooLarge none))
  | send (p : List Byte) (tm : Timeout) : s.cfg.fits p = true →
      ExecCase s (.send p tm)
        (State.emit { s with cSend := some (encodeFrame s.cfg p, tm), cOp := .inSend }
          (.handToSink (encodeFrame s.cfg p) tm))
  | sendTooLarge (p : List Byte) (tm : Timeout) : ¬ s.cfg.fits p = true →
      ExecCase s (.send p tm) (s.emit (.send .payloadTooLarge))
  | parseStep (b : Byte) (ready : Bool) (u : State) : ParseCase b s ready u →
      ExecCase s (.parseStep b) (u.emit (.parseStep ready))
  | processPending : s.inState .frameComplete → ExecCase s .process (s.emit (.process false))
  | processStart : ¬ s.inState .frameComplete → ExecCase s .process { s with cOp := .inProcess }
  | takeNothing : s.ibReady = false →
      ExecCase s .takeFrame (s.emit (.takeFrame .noFrameAvailable [] 0))
  | takeFrame : s.ibReady = true → s.ibLen.toNat ≤ s.cfg.maxDataLength →
      ExecCase s .takeFrame
        (s.takeInbox.emit (.takeFrame .ok (s.slots .ibBuf s.ibLen.toNat) s.ibLen))
  | init : ExecCase s .init s.initRegisters
  | startRx : ExecCase s .startRx (s.emit .startRequest)
  | stopRx : ExecCase s .stopRx (s.emit .stopRequest)

theorem respond_next {o : Output} {s t : State} (h : respond o s = .next t) : t = s.emit o := by
  cases h
  rfl

theorem execRbRead_cases {s t : State} (h : execRbRead s = .next t) : ExecCase s .rbRead t := by
  obtain ⟨-, -, hk⟩ := onConsumerPort_next_iff.1 h
  clear h
  split at hk
  · next r u hr =>
    obtain ⟨hin, ⟨he, rfl, rfl⟩ | ⟨he, rfl, rfl⟩⟩ := ringRead_ok_cases hr <;> cases respond_next hk
    · exact .rbReadNone hin he
    · exact .rbReadSome hin he
  · cases hk

theorem execProcess_cases {s t : State} (h : execProcess s = .next t) : ExecCase s .process t := by
  obtain ⟨-, -, h⟩ := onConsumerPort_next_iff.1 h
  split at h
  case h_1 hp => cases respond_next h; exact .processPending (ParserState.ofCode_eq_some_iff.1 hp)
  case h_6 => cases h
  all_goals
    next hp =>
    cases h
    refine .processStart fun hf => ?_
    have := State.inState_unique (ParserState.ofCode_eq_some_iff.1 hp) hf
    cases this

theorem execTakeFrame_cases {s t : State} (h : execTakeFrame s = .next t) : ExecCase s .takeFrame t := by
  obtain ⟨-, -, h⟩ := onConsumerPort_next_iff.1 h
  split at h
  · cases respond_next h
    exact .takeNothing ‹_›
  · next hr =>
    split at h
    · cases respond_next h
      exact .takeFrame (by simpa using hr) ‹_›
    · cases h

/-- Everything an operation can do when it answers a next state. -/
theorem exec_cases {i : Instr} {s t : State} (h : exec i s = .next t) :
    s.cfg.legal = true ∧ ((∃ b, i = .rbWrite b) ∨ s.cOp = .none) ∧ ExecCase s i t := by
  cases i with
  | rbWrite b =>
    obtain ⟨hl, h⟩ := onProducerPort_next_iff.1 h
    refine ⟨hl, .inl ⟨b, rfl⟩, ?_⟩
    unfold ringWrite at h
    split at h <;> cases h
    exact .rbWrite b ‹_›
  | rbRead =>
    obtain ⟨hl, hc, -⟩ := onConsumerPort_next_iff.1 h
    exact ⟨hl, .inr hc, execRbRead_cases h⟩
  | rbAvailable =>
    obtain ⟨hl, hc, h⟩ := onConsumerPort_next_iff.1 h
    refine ⟨hl, .inr hc, ?_⟩
    split at h <;> cases h
    exact .rbAvailable ‹_›
  | checksum span =>
    obtain ⟨hl, hc, h⟩ := onConsumerPort_next_iff.1 h
    cases respond_next h
    exact ⟨hl, .inr hc, .checksum span⟩
  | encode p =>
    obtain ⟨hl, hc, h⟩ := onConsumerPort_next_iff.1 h
    refine ⟨hl, .inr hc, ?_⟩
    split at h <;> cases h
    · exact .encode p ‹_›
    · exact .encodeTooLarge p ‹_›
  | send p tm =>
    obtain ⟨hl, hc, h⟩ := onConsumerPort_next_iff.1 h
    refine ⟨hl, .inr hc, ?_⟩
    split at h <;> cases h
    · exact .send p tm ‹_›
    · exact .sendTooLarge p tm ‹_›
  | parseStep b =>
    obtain ⟨hl, hc, h⟩ := onConsumerPort_next_iff.1 h
    refine ⟨hl, .inr hc, ?_⟩
    split at h
    · next ready u hu =>
      cases respond_next h
      exact .parseStep b ready u (parseByte_cases hu)
    · cases h
  | process =>
    obtain ⟨hl, hc, -⟩ := onConsumerPort_next_iff.1 h
    exact ⟨hl, .inr hc, execProcess_cases h⟩
  | takeFrame =>
    obtain ⟨hl, hc, -⟩ := onConsumerPort_next_iff.1 h
    exact ⟨hl, .inr hc, execTakeFrame_cases h⟩
  | init =>
    obtain ⟨hl, hc, h⟩ := onConsumerPort_next_iff.1 h
    cases h
    exact ⟨hl, .inr hc, .init⟩
  | startRx =>
    obtain ⟨hl, hc, h⟩ := onConsumerPort_next_iff.1 h
    cases respond_next h
    exact ⟨hl, .inr hc, .startRx⟩
  | stopRx =>
    obtain ⟨hl, hc, h⟩ := onConsumerPort_next_iff.1 h
    cases respond_next h
    exact ⟨hl, .inr hc, .stopRx⟩

/-- On a free Consumer port PARSE_STEP answers the transition that applies. -/
theorem exec_parseStep_of_case {b : Byte} {s u : State} {ready : Bool} (hf : s.consumerFree)
    (h : ParseCase b s ready u) : exec (.parseStep b) s = .next (u.emit (.parseStep ready)) := by
  show execParseStep b s = _
  unfold execParseStep
  rw [onConsumerPort_of_free hf.1 hf.2, parseByte_of_case h]
  rfl

/-! ### The micro-steps and the Sink's part -/

/-- Every next state a PROCESS micro-step can give (R172). -/
inductive MicroCase (s : State) : State → Prop
  | empty : s.rbHead = s.rbTail → MicroCase s (State.emit { s with cOp := .none } (.process false))
  | frame (u : State) : s.rbHead ≠ s.rbTail →
      ParseCase (s.slot .rbBuf s.rbTail) s.ringAdvance true u →
      MicroCase s (State.emit { u with cOp := .none } (.process true))
  | more (u : State) : s.rbHead ≠ s.rbTail →
      ParseCase (s.slot .rbBuf s.rbTail) s.ringAdvance false u → MicroCase s u

theorem processMicro_cases {s t : State} (h : processMicro s = .next t) :
    s.cfg.legal = true ∧ s.cOp = .inProcess ∧ s.ringIndicesInRange = true ∧ MicroCase s t := by
  obtain ⟨hl, hk⟩ := inLegalBuild_next_iff.1 h
  clear h
  split at hk
  · next hc =>
    split at hk
    · cases hk
    · next u hu =>
      obtain ⟨hin, ⟨he, -, rfl⟩ | ⟨-, hr, -⟩⟩ := ringRead_ok_cases hu
      · cases respond_next hk
        exact ⟨hl, hc, hin, .empty he⟩
      · cases hr
    · next b u hu =>
      obtain ⟨hin, ⟨-, hr, -⟩ | ⟨he, hr, rfl⟩⟩ := ringRead_ok_cases hu
      · cases hr
      · cases hr
        split at hk
        · cases hk
        · next v hv =>
          cases respond_next hk
          exact ⟨hl, hc, hin, .frame v he (parseByte_cases hv)⟩
        · next v hv =>
          cases hk
          exact ⟨hl, hc, hin, .more _ he (parseByte_cases hv)⟩
  · cases hk

theorem sinkAnswers_cases {ok : Bool} {s t : State} (h : sinkAnswers ok s = .next t) :
    s.cfg.legal = true ∧ s.cOp = .inSend ∧ s.cSend.isSome = true ∧ s.sinkAnswer = none ∧
      t = { s with sinkAnswer := some ok } := by
  obtain ⟨hl, h⟩ := inLegalBuild_next_iff.1 h
  split at h
  · next hc =>
    cases h
    exact ⟨hl, hc.1, hc.2.1, hc.2.2, rfl⟩
  · cases h

theorem sendComplete_cases {s t : State} (h : sendComplete s = .next t) :
    s.cfg.legal = true ∧ s.cOp = .inSend ∧ ∃ ok, s.sinkAnswer = some ok ∧
      t = State.emit { s with cSend := none, cOp := .none, sinkAnswer := none }
        (.send (sendStatus ok)) := by
  obtain ⟨hl, h⟩ := inLegalBuild_next_iff.1 h
  split at h
  · next hc =>
    split at h
    · next ok hok =>
      cases respond_next h
      exact ⟨hl, hc, ok, hok, rfl⟩
    · cases h
  · cases h

/-! ### The agents and the step -/

/-- Everything one agent's step can do when it answers a next state. -/
theorem agentStep_cases {a : AgentStep} {s t : State} (h : agentStep a s = .next t) :
    (∃ r i, a = .request r ∧ decode r = .ok i ∧ exec i s = .next t) ∨
    (a = .processMicro ∧ processMicro s = .next t) ∨
    (∃ ok, a = .sinkAnswer ok ∧ sinkAnswers ok s = .next t) ∨
    (a = .sendComplete ∧ sendComplete s = .next t) := by
  cases a with
  | request r =>
    cases hd : decode r with
    | ok i => exact .inl ⟨r, i, rfl, hd, by simpa [agentStep, hd] using h⟩
    | error e => simp [agentStep, hd] at h
  | processMicro => exact .inr (.inl ⟨rfl, h⟩)
  | sinkAnswer ok => exact .inr (.inr (.inl ⟨ok, rfl, h⟩))
  | sendComplete => exact .inr (.inr (.inr ⟨rfl, h⟩))

/-- Where a next state of the machine comes from: an agent's step on the state with that step gone from
the schedule or the turn used up, or an idle turn. -/
theorem step_cases {s t : State} (h : step s = .next t) :
    (∃ a rest, s.schedule = a :: rest ∧ agentStep a { s with schedule := rest } = .next t) ∨
    (s.schedule = [] ∧ agentStep (Config.environment s.draw s.turn) s.nextTurn = .next t) ∨
    (s.schedule = [] ∧ s.cfg.legal = true ∧ t = s.nextTurn) := by
  unfold step at h
  split at h
  · next a rest hs => exact .inl ⟨a, rest, hs, h⟩
  · next hs =>
    unfold drawnStep at h
    split at h
    · next u hu =>
      cases h
      exact .inr (.inl ⟨hs, hu⟩)
    · cases h
    · obtain ⟨hl, h⟩ := inLegalBuild_next_iff.1 h
      cases h
      exact .inr (.inr ⟨hs, hl, rfl⟩)

end Sys2Proof.Machine
end

