-- ==== Sys2Proof/Tests/Slice0.lean ====
section
/-! SUPPORT. Tests of the model, each on one word or one step, with the expected result from
spec/95_test_vectors.md (the vector's id stands in the comment) or from the encodings of
30_encoding.md; and for every statement with hypotheses a witness that meets them. -/

namespace Sys2Proof.Machine.Tests

/-! ### Helpers -/

/-- The reset state of a build with the sentinels 0xAA and 0xBB. -/
def start (rbSize maxLen : Nat) : State := State.resetWith ⟨rbSize, maxLen, 0xAA, 0xBB⟩ 0

/-- The result is a next state of which `f` holds. -/
def nextIs (r : Result) (f : State → Bool) : Bool :=
  match r with
  | .next t    => f t
  | .fault _   => false
  | .refused _ => false

/-- The result is the refusal named. -/
def refusedWith (r : Result) (why : Refusal) : Bool :=
  match r with
  | .next _    => false
  | .fault _   => false
  | .refused w => decide (w = why)

/-- The result is the fault named. -/
def faultsWith (r : Result) (why : Fault) : Bool :=
  match r with
  | .next _    => false
  | .fault w   => decide (w = why)
  | .refused _ => false

/-- The decoder's answer. -/
def decodesTo (r : Request) (i : Instr) : Bool := (decode r).toOption == some i

/-- A request on the Consumer port with nothing beside it. -/
def consumer (w : CmdWord) : Request := { port := .consumer, word := w, bytes := [], timeout := ⟨0⟩ }

/-- A request on the Producer port with nothing beside it. -/
def producer (w : CmdWord) : Request := { port := .producer, word := w, bytes := [], timeout := ⟨0⟩ }

/-- The end state of V-RB-3: RB_SIZE 4, three unread bytes, full. -/
def full : State := { start 4 255 with rbBuf := [(0, 0x11), (1, 0x22), (2, 0x33)], rbHead := 3 }

/-- A parser state, with the registers E, n, S and c as 95_test_vectors.md abbreviates them. -/
def parser (maxLen : Nat) (p : ParserState) (e n sum : Byte) (c : Bool) : State :=
  { start 4 maxLen with pState := p.code, pExpected := e, pReceived := n, pSum := sum, pCsOk := c }

/-- A pending frame with payload 01 02: the end state of V-TR-1. -/
def pending : State :=
  { parser 255 .frameComplete 2 2 5 false with
    pBuf := [(0, 0x01), (1, 0x02)], ibReady := true, ibLen := 2, ibBuf := [(0, 0x01), (1, 0x02)] }

/-- PROCESS in progress in the middle of a frame: E 2, n 1, S 03, the byte 02 unread, and a micro-step
scheduled. -/
def midFrame : State :=
  { parser 2 .dataReceiving 2 1 3 false with
    pBuf := [(0, 0x01)], rbBuf := [(0, 0xAA), (1, 0x02), (2, 0x01), (3, 0x02)], rbHead := 0, rbTail := 3,
    cOp := .inProcess, schedule := [.processMicro] }

/-! ### WellFormed: each check refuses an ill-formed term -/

theorem test_legal_build : (start 2 255).cfg.legal = true ∧ (start 4 0).cfg.legal = true := by decide
theorem test_ring_of_one_slot_is_illegal : Config.ringLegal ⟨1, 255, 0xAA, 0xBB⟩ = false := by decide
theorem test_length_256_is_illegal : Config.lengthLegal ⟨4, 256, 0xAA, 0xBB⟩ = false := by decide
theorem test_illegal_builds : Config.legal ⟨1, 255, 0xAA, 0xBB⟩ = false ∧ Config.legal ⟨4, 256, 0xAA, 0xBB⟩ = false := by
  decide

/-- V-X-1, V-X-2: reserved op. -/
theorem test_reserved_op_is_ill_formed :
    (consumer 0x000).wellFormed = false ∧ (consumer 0xD00).wellFormed = false ∧
    (consumer 0xE00).wellFormed = false ∧ (consumer 0xF00).wellFormed = false := by decide

/-- V-X-3: nonzero imm8. -/
theorem test_nonzero_imm_is_ill_formed :
    (consumer 0x201).wellFormed = false ∧ (consumer 0xC80).wellFormed = false := by decide

/-- V-X-4, V-X-5: wrong port. -/
theorem test_wrong_port_is_ill_formed :
    (consumer 0x1AA).wellFormed = false ∧ (producer 0x800).wellFormed = false := by decide

theorem test_well_formed_words :
    (producer 0x1FF).wellFormed = true ∧ (consumer 0x7FF).wellFormed = true ∧
    (consumer 0xC00).wellFormed = true := by decide

/-! ### Decoding: a word of each operation, written out from op = cmd[11:8] and imm8 = cmd[7:0] -/

theorem test_decode_rbWrite : decodesTo (producer 0b0001_10101010#12) (.rbWrite 0b10101010#8) = true := by
  decide
theorem test_decode_rbRead : decodesTo (consumer 0b0010_00000000#12) .rbRead = true := by decide
theorem test_decode_rbAvailable : decodesTo (consumer 0b0011_00000000#12) .rbAvailable = true := by decide
theorem test_decode_checksum :
    decodesTo { consumer 0b0100_00000000#12 with bytes := [0x01, 0x02] } (.checksum [0x01, 0x02]) = true := by
  decide
theorem test_decode_encode :
    decodesTo { consumer 0b0101_00000000#12 with bytes := [0x01, 0x02] } (.encode [0x01, 0x02]) = true := by
  decide
theorem test_decode_send :
    decodesTo { consumer 0b0110_00000000#12 with bytes := [0x01], timeout := ⟨7⟩ } (.send [0x01] ⟨7⟩) =
      true := by decide
theorem test_decode_parseStep : decodesTo (consumer 0b0111_10111011#12) (.parseStep 0b10111011#8) = true := by
  decide
theorem test_decode_process : decodesTo (consumer 0b1000_00000000#12) .process = true := by decide
theorem test_decode_takeFrame : decodesTo (consumer 0b1001_00000000#12) .takeFrame = true := by decide
theorem test_decode_init : decodesTo (consumer 0b1010_00000000#12) .init = true := by decide
theorem test_decode_startRx : decodesTo (consumer 0b1011_00000000#12) .startRx = true := by decide
theorem test_decode_stopRx : decodesTo (consumer 0b1100_00000000#12) .stopRx = true := by decide

/-- A table word that does not fit the command word is refused. -/
theorem test_decode_long_word : decodeTableWord 16 0x1200 = none ∧ decodeTableWord 16 0x000 = none := by decide

/-- The status codes of R83. -/
theorem test_status_codes :
    Status.ok.code = 0x00 ∧ Status.payloadTooLarge.code = 0x01 ∧ Status.transmitFailed.code = 0x02 ∧
    Status.noFrameAvailable.code = 0x03 := by decide

/-- The derived parameters of R9 and R11: the largest frame has 259 bytes. -/
theorem test_derived_parameters : Config.ofReset.maxFrame = 259 ∧ Config.ofReset.rbUsable = 259 := by decide

/-- R9: an index of 260 slots takes 9 bits, one of 4 slots takes 2. -/
theorem test_index_width :
    Config.idxWidth ⟨260, 255, 0xAA, 0xBB⟩ = 9 ∧ Config.idxWidth ⟨4, 255, 0xAA, 0xBB⟩ = 2 := by decide

/-- R86's lines. -/
theorem test_asm_text : asmText (.rbWrite 0xAA) = "P: write 0xAA" ∧ asmText .process = "A: process" := by
  decide

/-! ### The step -/

/-- V-CT-4: the first step after reset runs the placed word. -/
theorem test_first_step_writes :
    nextIs (step (State.reset.withFetchWord 16 0x1AA)) (fun t =>
      decide (t.rbBuf = [(0, 0xAA)] ∧ t.rbHead = 1 ∧ t.rbTail = 0)) = true := by decide

/-- V-X-3 through the step. -/
theorem test_first_step_refuses :
    refusedWith (step (State.reset.withFetchWord 16 0x201)) .immediateNotZero = true := by decide

/-! ### The ring -/

/-- V-RB-4: a write on a full ring discards the oldest byte. -/
theorem test_rbWrite_full :
    nextIs (exec (.rbWrite 0x44) full) (fun t =>
      decide (t.rbHead = 0 ∧ t.rbTail = 1 ∧ t.unread = [0x22, 0x33, 0x44])) = true := by decide

/-- V-RB-10: RB_SIZE 2 holds one byte. -/
theorem test_rbWrite_ring_of_two :
    nextIs (exec (.rbWrite 0x02) { start 2 255 with rbBuf := [(0, 0x01)], rbHead := 1 }) (fun t =>
      decide (t.rbHead = 0 ∧ t.rbTail = 1 ∧ t.unread = [0x02])) = true := by decide

/-- V-RB-1: None on an empty ring. -/
theorem test_rbRead_empty :
    nextIs (exec .rbRead (start 4 255)) (fun t =>
      decide (t.outputs = [.rbRead false 0x00] ∧ t.rbTail = 0)) = true := by decide

/-- V-RB-5: the tail wraps from 3 to 0. -/
theorem test_rbRead_wraps :
    nextIs (exec .rbRead { start 4 255 with rbBuf := [(0, 0x44), (3, 0x33)], rbHead := 1, rbTail := 3 })
      (fun t => decide (t.outputs = [.rbRead true 0x33] ∧ t.rbTail = 0)) = true := by decide

/-- V-RB-1, V-RB-2. -/
theorem test_rbAvailable :
    nextIs (exec .rbAvailable (start 4 255)) (fun t => decide (t.outputs = [.rbAvailable false])) = true ∧
    nextIs (exec .rbAvailable full) (fun t => decide (t.outputs = [.rbAvailable true] ∧ t.rbTail = 0)) =
      true := by decide

/-! ### CHECKSUM, ENCODE, SEND -/

/-- V-CS-5 and V-CS-9: sums above 255. -/
theorem test_checksum_wraps : checksum [0x80, 0x80, 0x80] = 0x80 ∧ checksum [0x02, 0xAA, 0xBB] = 0x67 := by
  decide

/-- V-CS-8. -/
theorem test_checksum_answers :
    nextIs (exec (.checksum [0x02, 0x01, 0x02]) (start 4 255)) (fun t =>
      decide (t.outputs = [.checksum 0x05])) = true := by decide

/-- V-EN-4: no escaping. -/
theorem test_encode_sentinels :
    nextIs (exec (.encode [0xAA, 0xBB]) (start 4 255)) (fun t =>
      decide (t.outputs = [.encode .ok (some [0xAA, 0x02, 0xAA, 0xBB, 0x67, 0xBB])])) = true := by decide

/-- V-EN-8, V-EN-9: MAX_DATA_LENGTH is accepted, one more is not. -/
theorem test_encode_boundary :
    nextIs (exec (.encode [1, 2, 3, 4]) (start 4 4)) (fun t =>
      decide (t.outputs = [.encode .ok (some [0xAA, 4, 1, 2, 3, 4, 0x0E, 0xBB])])) = true ∧
    nextIs (exec (.encode [1, 2, 3, 4, 5]) (start 4 4)) (fun t =>
      decide (t.outputs = [.encode .payloadTooLarge none])) = true := by decide

/-- V-SD-2, step 1. -/
theorem test_send_hands_over :
    nextIs (exec (.send [0x01, 0x02] ⟨9⟩) (start 4 255)) (fun t =>
      decide (t.cOp = .inSend ∧ t.cSend = some ([0xAA, 2, 1, 2, 5, 0xBB], ⟨9⟩))) = true := by decide

/-- V-SD-2, the Sink's step and step 2. -/
theorem test_send_completes :
    nextIs (runAgents (answerLine false)
      { start 4 255 with cOp := .inSend, cSend := some ([0xAA, 0, 0, 0xBB], ⟨9⟩) }) (fun t =>
      decide (t.cOp = .none ∧ t.cSend = none ∧ t.outputs = [.send .transmitFailed])) = true := by decide

/-! ### PARSE_STEP, two of the vectors P-1 to P-19 in each parser state -/

/-- P-11: the first payload byte. -/
theorem test_parseStep_first_byte :
    nextIs (exec (.parseStep 0x01) (parser 4 .lengthReceived 2 0 2 false)) (fun t =>
      decide (t.pState = 3 ∧ t.pBuf = [(0, 0x01)] ∧ t.pReceived = 1 ∧ t.pSum = 0x03)) = true := by decide

/-- P-16: publication. -/
theorem test_parseStep_publishes :
    nextIs (exec (.parseStep 0xBB)
      { parser 4 .dataReceiving 2 2 5 true with pBuf := [(0, 0x01), (1, 0x02)] }) (fun t =>
      decide (t.pState = 4 ∧ t.pCsOk = false ∧ t.ibReady = true ∧ t.ibLen = 2 ∧
        t.ibBuf = [(0, 0x01), (1, 0x02)] ∧ t.outputs = [.parseStep true])) = true := by decide

/-- P-1, P-5, P-19. -/
theorem test_parseByte_states :
    ((parseByte 0xAA (parser 4 .idle 0 3 0 false)).toOption.map fun r => (r.2.pState, r.2.pReceived)) =
      some (1, 0) ∧
    ((parseByte 0x05 (parser 4 .headFound 0 0 0 false)).toOption.map fun r => (r.2.pState, r.2.pExpected)) =
      some (0, 0) ∧
    ((parseByte 0x02 (parser 4 .dataReceiving 2 1 1 false)).toOption.map fun r => (r.2.pReceived, r.2.pSum)) =
      some (2, 3) := by decide

/-! ### PROCESS, TAKE_FRAME and the control operations -/

/-- V-PR-5: NoNewFrame at once while a frame is pending. -/
theorem test_process_pending :
    nextIs (exec .process pending) (fun t =>
      decide (t.cOp = .none ∧ t.outputs = [.process false])) = true := by decide

/-- V-PR-4, the second call's first micro-step: the byte 02 is read and parsed. -/
theorem test_micro_step :
    nextIs (processMicro midFrame) (fun t =>
      decide (t.rbTail = 0 ∧ t.pReceived = 2 ∧ t.pSum = 5 ∧ t.cOp = .inProcess)) = true := by decide

/-- V-TK-2: the frame, then nothing. -/
theorem test_takeFrame :
    nextIs (exec .takeFrame pending) (fun t =>
      decide (t.outputs = [.takeFrame .ok [0x01, 0x02] 2] ∧ t.pState = 0 ∧ t.ibReady = false ∧
        t.ibLen = 2)) = true := by decide

/-- V-TK-1. -/
theorem test_takeFrame_nothing :
    nextIs (exec .takeFrame (start 8 255)) (fun t =>
      decide (t.outputs = [.takeFrame .noFrameAvailable [] 0x00])) = true := by decide

/-- V-CT-1: the arrays keep their bytes. -/
theorem test_init :
    nextIs (exec .init { pending with rbBuf := [(0, 0xAA)], rbHead := 1 }) (fun t =>
      decide (t.rbHead = 0 ∧ t.pState = 0 ∧ t.pExpected = 0 ∧ t.ibReady = false ∧ t.ibLen = 0 ∧
        t.rbBuf = [(0, 0xAA)] ∧ t.ibBuf = [(0, 0x01), (1, 0x02)])) = true := by decide

/-- V-CT-2, V-CT-3. -/
theorem test_start_stop :
    nextIs (exec .startRx (start 8 255)) (fun t =>
      decide (t = { start 8 255 with outputs := [.startRequest] })) = true ∧
    nextIs (exec .stopRx (start 8 255)) (fun t =>
      decide (t = { start 8 255 with outputs := [.stopRequest] })) = true := by decide

/-- V-X-6. -/
theorem test_busy_consumer : refusedWith (exec .takeFrame midFrame) .consumerBusy = true := by decide

/-- R77, I22: a `p_state` of 5, and an index at RB_SIZE. -/
theorem test_faults :
    faultsWith (exec (.parseStep 0xAA) { start 4 255 with pState := 5 }) .parserStateIllegal = true ∧
    faultsWith (exec .rbRead { start 4 255 with rbTail := 4 }) .ringIndexOutOfRange = true := by decide

/-! ### Witnesses: states and operands that meet the hypotheses of each statement that has some, one for
each clause, at a bound where the clause has one. The name after `witness_` is the statement's. -/

/-- A state whose next scheduled step is the request given. -/
def scheduled (r : Request) : State := { start 4 255 with schedule := [.request r] }

/-- A scheduled request that the decoder refuses, and each of R82's four kinds at an edge of its range. -/
theorem witness_IllegalCommandWordsAreRefused :
    ((scheduled (consumer 0xF00)).schedule = .request (consumer 0xF00) :: [] ∧
      decode (consumer 0xF00) = .error .reservedOp) ∧
    cmdOp (consumer 0x000).word ∈ [0x0, 0xD, 0xE, 0xF] ∧
    (cmdOp (consumer 0x1FF).word = 0x1 ∧ (consumer 0x1FF).port = .consumer) ∧
    (cmdOp (producer 0xC00).word ≠ 0x1 ∧ (producer 0xC00).port = .producer) ∧
    cmdOp (consumer 0x201).word ∉ [(0x1 : BitVec 4), 0x7] ∧ cmdImm (consumer 0x201).word ≠ 0x00 :=
  ⟨⟨rfl, rfl⟩, by decide, by decide, by decide, by decide, by decide⟩

theorem witness_StepRunsTheScheduledRequest :
    (scheduled (producer 0x1AA)).schedule = .request (producer 0x1AA) :: [] ∧
    decode (producer 0x1AA) = .ok (.rbWrite 0xAA) := ⟨rfl, rfl⟩

theorem witness_StepTakesTheScheduledAgentStep :
    ({ start 4 255 with schedule := [.processMicro] } : State).schedule = .processMicro :: [] ∧
    ({ start 4 255 with schedule := [.sinkAnswer true] } : State).schedule = .sinkAnswer true :: [] ∧
    ({ start 4 255 with schedule := [.sendComplete] } : State).schedule = .sendComplete :: [] := by decide

theorem witness_StepRunsThePlacedWord : decodeTableWord 16 0x1FF = some (.rbWrite 0xFF) := by decide

theorem witness_UnscheduledStepIsTheEnvironmentsDraw :
    (start 2 255).cfg.legal = true ∧ (start 2 255).schedule = [] := by decide

theorem witness_BusyConsumerIsRefusedAndTheProducerIsNot :
    (midFrame.cfg.legal = true ∧ midFrame.cOp ≠ .none ∧ midFrame.ringInRange) ∧
    (∀ b, Instr.takeFrame ≠ .rbWrite b) ∧
    ({ start 2 0 with cOp := .inSend } : State).cfg.legal = true ∧
    ({ start 2 0 with cOp := .inSend } : State).cOp ≠ .none := by
  refine ⟨by decide, fun b h => ?_, by decide, by decide⟩
  cases h

theorem witness_IllegalBuildIsRefused :
    255 < (start 4 256).cfg.maxDataLength ∧ (start 1 255).cfg.rbSize < 2 := by decide

theorem witness_IllegalParserStateFaults :
    (({ start 4 255 with pState := 5 } : State).consumerFree ∧ ({ start 4 255 with pState := 5 } : State).pState = 5) ∧
    ({ start 4 255 with pState := 7 } : State).consumerFree ∧ ({ start 4 255 with pState := 7 } : State).pState = 7 := by
  decide

theorem witness_RingIndexOutOfRangeFaults :
    (({ start 4 255 with rbHead := 4 } : State).consumerFree ∧ 4 ≤ ({ start 4 255 with rbHead := 4 } : State).rbHead) ∧
    ({ start 4 255 with rbTail := 4 } : State).consumerFree ∧ 4 ≤ ({ start 4 255 with rbTail := 4 } : State).rbTail := by
  decide

theorem witness_StepKeepsTheArraysCanonical :
    (∀ a, ((scheduled (producer 0x1AA)).array a).wf) ∧ ∃ t, step (scheduled (producer 0x1AA)) = .next t := by
  refine ⟨fun a => ?_, _, rfl⟩
  cases a <;> decide

/-- A ring that is not full, and a full one with its newest byte. -/
theorem witness_RbWriteStoresAndDropsTheOldestWhenFull :
    (start 2 255).cfg.legal = true ∧ (start 2 255).ringInRange ∧
    full.cfg.legal = true ∧ full.ringInRange ∧ (full.rbHead + 1) % full.cfg.rbSize = full.rbTail ∧
    2 < full.ringCount := by decide

/-- For RbReadConsumesTheOldestByte, RbAvailableReportsNonEmptiness and RingRefinesABoundedFifo. -/
theorem witness_RbReadConsumesTheOldestByte :
    ((start 2 255).consumerFree ∧ (start 2 255).ringInRange ∧ (start 2 255).rbHead = (start 2 255).rbTail) ∧
    full.consumerFree ∧ full.ringInRange ∧ full.rbHead ≠ full.rbTail := by decide

theorem witness_RbAvailableReportsNonEmptiness :
    Config.legal ⟨2, 0, 0xAA, 0xAA⟩ = true ∧ full.consumerFree ∧ full.ringInRange ∧ [(0x44 : Byte)] ≠ [] := by
  decide

theorem witness_RingRefinesABoundedFifo :
    full.consumerFree ∧ full.ringInRange ∧ full.unread.length = full.cfg.rbUsable := by decide

theorem witness_OverflowKeepsTheNewestBytes :
    (start 4 255).cfg.legal = true ∧ (start 4 255).ringInRange ∧
    (start 4 255).rbHead = (start 4 255).rbTail := by decide

theorem witness_BytesAreReadBackInWriteOrder :
    (start 4 255).consumerFree ∧ (start 4 255).ringInRange ∧ (start 4 255).rbHead = (start 4 255).rbTail ∧
    [(0x11 : Byte), 0x22, 0x33].length ≤ (start 4 255).cfg.rbUsable := by decide

theorem witness_ChecksumIsTheSumModulo256 : (start 2 255).consumerFree := by decide

theorem witness_ChecksumIsAdditiveAndOrderFree : [(0xFF : Byte), 0x02].Perm [0x02, 0xFF] := by decide

theorem witness_ChecksumDetectsOneChangedByte : (0xFF : Byte) ≠ 0x00 := by decide

/-- MAX_DATA_LENGTH bytes, and one more. -/
theorem witness_EncodeAnswersTheFrameOrTooLarge :
    (start 4 2).consumerFree ∧ [(0xAA : Byte), 0xBB].length ≤ (start 4 2).cfg.maxDataLength ∧
    (start 4 2).cfg.maxDataLength < [(1 : Byte), 2, 3].length := by decide

theorem witness_FrameHasTheWireFormat :
    Config.legal ⟨4, 2, 0xAA, 0xBB⟩ = true ∧ Config.fits ⟨4, 2, 0xAA, 0xBB⟩ [1, 2] = true ∧
    1 < [(1 : Byte), 2].length := by decide

theorem witness_SendHandsOverThenCompletes :
    (start 4 2).cfg.legal = true ∧ (start 4 2).cOp = .none ∧
    [(1 : Byte), 2].length ≤ (start 4 2).cfg.maxDataLength ∧
    (start 4 2).cfg.maxDataLength < [(1 : Byte), 2, 3].length ∧
    ({ start 4 2 with cOp := .inSend, sinkAnswer := some false } : State).cfg.legal = true ∧
    ({ start 4 2 with cOp := .inSend, sinkAnswer := some false } : State).cOp = .inSend ∧
    ({ start 4 2 with cOp := .inSend, sinkAnswer := some false } : State).sinkAnswer = some false := by decide

/-- A SEND that waits for the Sink. -/
def sending : State :=
  { start 4 2 with cOp := .inSend, cSend := some ([0xAA, 0, 0, 0xBB], ⟨9⟩) }

theorem witness_SinkAnswersOncePerFrame :
    (sending.cfg.legal = true ∧ sending.cOp = .inSend ∧ sending.cSend.isSome = true ∧
      sending.sinkAnswer = none) ∧
    (start 4 2).cfg.legal = true ∧ (start 4 2).cSend = none := by decide

theorem witness_ParseStepHuntsForHeadInIdle :
    (start 4 2).consumerFree ∧ (start 4 2).inState .idle ∧
    (0xAA : Byte) = (start 4 2).cfg.headByte ∧ (0xBB : Byte) ≠ (start 4 2).cfg.headByte :=
  ⟨by decide, rfl, rfl, by decide⟩

/-- LEN at MAX_DATA_LENGTH, and one above. -/
theorem witness_ParseStepTakesTheLengthInHeadFound :
    (parser 2 .headFound 0 0 0 false).consumerFree ∧ (parser 2 .headFound 0 0 0 false).inState .headFound ∧
    (2 : Byte).toNat ≤ (parser 2 .headFound 0 0 0 false).cfg.maxDataLength ∧
    (parser 2 .headFound 0 0 0 false).cfg.maxDataLength < (3 : Byte).toNat :=
  ⟨by decide, rfl, by decide, by decide⟩

theorem witness_ParseStepInLengthReceived :
    ((parser 2 .lengthReceived 0 0 0 false).consumerFree ∧
      (parser 2 .lengthReceived 0 0 0 false).inState .lengthReceived ∧
      (parser 2 .lengthReceived 0 0 0 false).pExpected = 0 ∧ (0x00 : Byte) = 0x00 ∧ (0x01 : Byte) ≠ 0x00) ∧
    (parser 2 .lengthReceived 2 0 2 false).consumerFree ∧
    (parser 2 .lengthReceived 2 0 2 false).inState .lengthReceived ∧
    (parser 2 .lengthReceived 2 0 2 false).pExpected ≠ 0 ∧
    (parser 2 .lengthReceived 2 0 2 false).pExpected.toNat ≤ 2 :=
  ⟨⟨by decide, rfl, rfl, rfl, by decide⟩, by decide, rfl, by decide, by decide⟩

theorem witness_ParseStepInDataReceiving :
    ((parser 2 .dataReceiving 2 1 3 false).consumerFree ∧
      (parser 2 .dataReceiving 2 1 3 false).inState .dataReceiving ∧
      (parser 2 .dataReceiving 2 1 3 false).pCsOk = false ∧
      (parser 2 .dataReceiving 2 1 3 false).pReceived < (parser 2 .dataReceiving 2 1 3 false).pExpected ∧
      (parser 2 .dataReceiving 2 1 3 false).pExpected.toNat ≤ 2) ∧
    (parser 2 .dataReceiving 2 2 5 false).consumerFree ∧
    (parser 2 .dataReceiving 2 2 5 false).inState .dataReceiving ∧
    (parser 2 .dataReceiving 2 2 5 false).pCsOk = false ∧
    (parser 2 .dataReceiving 2 2 5 false).pReceived = (parser 2 .dataReceiving 2 2 5 false).pExpected ∧
    (5 : Byte) = (parser 2 .dataReceiving 2 2 5 false).pSum ∧
    (6 : Byte) ≠ (parser 2 .dataReceiving 2 2 5 false).pSum :=
  ⟨⟨by decide, rfl, rfl, by decide, by decide⟩, by decide, rfl, rfl, rfl, rfl, by decide⟩

theorem witness_ParseStepPublishesOnTail :
    (parser 2 .dataReceiving 2 2 5 true).consumerFree ∧
    (parser 2 .dataReceiving 2 2 5 true).inState .dataReceiving ∧
    (parser 2 .dataReceiving 2 2 5 true).pCsOk = true ∧
    (0xBB : Byte) = (parser 2 .dataReceiving 2 2 5 true).cfg.tailByte ∧
    (parser 2 .dataReceiving 2 2 5 true).pExpected.toNat ≤ 2 ∧
    (0xAA : Byte) ≠ (parser 2 .dataReceiving 2 2 5 true).cfg.tailByte :=
  ⟨by decide, rfl, rfl, rfl, by decide, by decide⟩

theorem witness_ParseStepIgnoresBytesInFrameComplete :
    pending.consumerFree ∧ pending.inState .frameComplete := ⟨by decide, rfl⟩

/-- A byte that completes a frame, and one that does not. -/
theorem witness_FrameReadyExactlyOnAcceptedTail :
    (∃ t, exec (.parseStep 0xBB) (parser 2 .dataReceiving 0 0 0 true) = .next t) ∧
    ((parser 2 .dataReceiving 0 0 0 true).inState .dataReceiving ∧
      (parser 2 .dataReceiving 0 0 0 true).pCsOk = true ∧
      (0xBB : Byte) = (parser 2 .dataReceiving 0 0 0 true).cfg.tailByte) ∧
    (∃ t, exec (.parseStep 0xBB) (start 4 2) = .next t) ∧ (start 4 2).pCsOk = false :=
  ⟨⟨_, rfl⟩, ⟨rfl, rfl, rfl⟩, ⟨_, rfl⟩, rfl⟩

/-- The invariant in the middle of a frame, with PROCESS in progress and a byte unread: for
ProcessEndsAfterTheBytesBufferedAndWritten, StepKeepsTheInvariant, NoStepFaultsUnderTheInvariant and
ResetContentsAreNeverObserved. -/
theorem witness_Inv_midFrame : midFrame.Inv where
  legal := rfl
  arrays a := by unfold State.arrayOk; cases a <;> decide
  ring := ⟨by decide, by decide, by unfold State.written; decide⟩
  parser := by
    constructor <;> (try simp only [State.inState, State.written]) <;> decide
  inbox := by constructor <;> (try simp only [State.inState]) <;> decide
  port :=
    { send_iff := by decide
      send_frame := fun f t h => by cases h
      answer_inSend := by decide
      process_open := fun _ => by unfold State.inState; decide }

/-- The TAIL of a frame is due, and a byte is unread. -/
def tailDue : State :=
  { parser 2 .dataReceiving 2 2 5 true with
    pBuf := [(0, 0x01), (1, 0x02)], rbBuf := [(3, 0xBB)], rbHead := 0, rbTail := 3 }

/-- The invariant where ParseStepPublishesOnTail has it as a premise. -/
theorem witness_Inv_tailDue : tailDue.Inv ∧ tailDue.consumerFree ∧ tailDue.inState .dataReceiving ∧
    tailDue.pCsOk = true where
  left :=
    { legal := rfl
      arrays := fun a => by unfold State.arrayOk; cases a <;> decide
      ring := ⟨by decide, by decide, by unfold State.written; decide⟩
      parser := by
        constructor <;> (try simp only [State.inState, State.written]) <;> decide
      inbox := by constructor <;> (try simp only [State.inState]) <;> decide
      port :=
        { send_iff := by decide
          send_frame := fun f t h => by cases h
          answer_inSend := by decide
          process_open := fun h => by cases h } }
  right := ⟨by decide, rfl, rfl⟩

/-- The invariant with a frame pending and the Consumer port free: for EveryByteHasATransition and
ResetIsReachedAtPowerOnAndByInit. -/
theorem witness_Inv_pending : pending.Inv ∧ pending.cOp = .none where
  left :=
    { legal := rfl
      arrays := fun a => by unfold State.arrayOk; cases a <;> decide
      ring := ⟨by decide, by decide, by unfold State.written; decide⟩
      parser := by
        constructor <;> (try simp only [State.inState, State.written]) <;> decide
      inbox := by constructor <;> (try simp only [State.inState]) <;> decide
      port :=
        { send_iff := by decide
          send_frame := fun f t h => by cases h
          answer_inSend := by decide
          process_open := fun h => by cases h } }
  right := rfl

theorem witness_ProcessStartsUnlessAFrameIsPending :
    (pending.consumerFree ∧ pending.inState .frameComplete) ∧
    ((start 4 2).consumerFree ∧ (start 4 2).inState .idle) ∧
    ((parser 2 .headFound 0 0 0 false).consumerFree ∧ (parser 2 .headFound 0 0 0 false).inState .headFound) ∧
    ((parser 2 .lengthReceived 2 0 2 false).consumerFree ∧
      (parser 2 .lengthReceived 2 0 2 false).inState .lengthReceived) ∧
    (parser 2 .dataReceiving 2 1 3 false).consumerFree ∧
    (parser 2 .dataReceiving 2 1 3 false).inState .dataReceiving :=
  ⟨⟨by decide, rfl⟩, ⟨by decide, rfl⟩, ⟨by decide, rfl⟩, ⟨by decide, rfl⟩, by decide, rfl⟩

/-- PROCESS in progress with an empty ring; with a byte that is not the last of a frame; and with the TAIL
of a frame. -/
def awaitingTail : State := { midFrame with pCsOk := true, pReceived := 2, pSum := 5, rbBuf := [(3, 0xBB)] }

theorem witness_MicroStepReadsThenParses :
    (({ start 4 2 with cOp := .inProcess } : State).cfg.legal = true ∧
      ({ start 4 2 with cOp := .inProcess } : State).ringInRange) ∧
    (midFrame.cfg.legal = true ∧ midFrame.cOp = .inProcess ∧ midFrame.ringInRange ∧
      midFrame.rbHead ≠ midFrame.rbTail ∧
      nextIs (exec (.parseStep (midFrame.slot .rbBuf midFrame.rbTail))
          { midFrame with rbTail := (midFrame.rbTail + 1) % midFrame.cfg.rbSize, cOp := .none })
        (fun t => decide (t.outputs = midFrame.outputs ++ [.parseStep false])) = true) ∧
    awaitingTail.cfg.legal = true ∧ awaitingTail.cOp = .inProcess ∧ awaitingTail.ringInRange ∧
    awaitingTail.rbHead ≠ awaitingTail.rbTail ∧
    nextIs (exec (.parseStep (awaitingTail.slot .rbBuf awaitingTail.rbTail))
        { awaitingTail with rbTail := (awaitingTail.rbTail + 1) % awaitingTail.cfg.rbSize, cOp := .none })
      (fun t => decide (t.outputs = awaitingTail.outputs ++ [.parseStep true])) = true := by decide

/-- Beside `witness_Inv_midFrame`: one unread byte, one write between the micro-steps, three of these. -/
theorem witness_ProcessEndsAfterTheBytesBufferedAndWritten :
    midFrame.cOp = .inProcess ∧ midFrame.ringCount = 1 ∧
    (∀ a ∈ [AgentStep.processMicro, issue (.rbWrite 0x05), .processMicro, .processMicro],
      a = .processMicro ∨ ∃ b, a = issue (.rbWrite b)) ∧
    [AgentStep.processMicro, issue (.rbWrite 0x05), .processMicro, .processMicro].length =
      [AgentStep.processMicro, issue (.rbWrite 0x05), .processMicro, .processMicro].count .processMicro + 1 ∧
    midFrame.ringCount + 1 + 1 ≤
      [AgentStep.processMicro, issue (.rbWrite 0x05), .processMicro, .processMicro].count .processMicro := by
  refine ⟨rfl, rfl, fun a ha => ?_, by decide, by decide⟩
  simp only [List.mem_cons, List.not_mem_nil, or_false] at ha
  rcases ha with rfl | rfl | rfl | rfl
  · exact .inl rfl
  · exact .inr ⟨0x05, rfl⟩
  · exact .inl rfl
  · exact .inl rfl

theorem witness_ProcessGoesOnWhileTheProducerWrites :
    ({ start 2 2 with cOp := .inProcess } : State).cfg.legal = true ∧
    ({ start 2 2 with cOp := .inProcess } : State).ringInRange ∧
    ({ start 2 2 with cOp := .inProcess } : State).inState .idle ∧
    (0xBB : Byte) ≠ ({ start 2 2 with cOp := .inProcess } : State).cfg.headByte :=
  ⟨by decide, by decide, rfl, by decide⟩

/-- A payload of MAX_DATA_LENGTH bytes. -/
theorem witness_EncodedFrameParsesBackToItsPayload :
    (start 4 2).consumerFree ∧ (start 4 2).inState .idle ∧
    [(0xAA : Byte), 0xBB].length ≤ (start 4 2).cfg.maxDataLength := ⟨by decide, rfl, by decide⟩

/-- P-R1, P-R2 and P-R5a. -/
theorem witness_CorruptedFrameIsDroppedAndTheNextReceived :
    (start 16 4).consumerFree ∧ (start 16 4).inState .idle ∧ [(5 : Byte)].length ≤ (start 16 4).cfg.maxDataLength ∧
    ((0xCC : Byte) ≠ (start 16 4).cfg.tailByte ∧
      [(0xAA : Byte), 1, 5, 6, 0xCC] =
        [(start 16 4).cfg.headByte, lenByte [5]] ++ [5] ++ [checksum (lenByte [5] :: [5]), 0xCC]) ∧
    ((7 : Byte) ≠ checksum (lenByte [5] :: [5]) ∧ (start 16 4).cfg.tailByte ≠ (start 16 4).cfg.headByte ∧
      [(0xAA : Byte), 1, 5, 7, 0xBB] =
        [(start 16 4).cfg.headByte, lenByte [5]] ++ [5] ++ [7, (start 16 4).cfg.tailByte]) ∧
    ((start 16 4).cfg.maxDataLength < (5 : Byte).toNat ∧
      (start 16 4).cfg.headByte ∉ [5] ++ [checksum (lenByte [5] :: [5]), (start 16 4).cfg.tailByte] ∧
      [(0xAA : Byte), 5, 5, 6, 0xBB] =
        [(start 16 4).cfg.headByte, 5] ++ [5] ++
          [checksum (lenByte [5] :: [5]), (start 16 4).cfg.tailByte]) :=
  ⟨by decide, rfl, by decide, by decide, by decide, by decide⟩

/-- V-PR-5's ring after its first TAKE_FRAME, with the frame AA 01 07 08 BB and a byte after it. -/
def buffered : State :=
  { start 16 255 with
    rbBuf := [(4, 0xAA), (5, 0x01), (6, 0x07), (7, 0x08), (8, 0xBB), (9, 0x55)], rbHead := 10, rbTail := 4 }

theorem witness_BufferedFrameIsProcessedAndTaken :
    buffered.consumerFree ∧ buffered.ringInRange ∧ buffered.inState .idle ∧
    [(7 : Byte)].length ≤ buffered.cfg.maxDataLength ∧
    buffered.unread = encodeFrame buffered.cfg [7] ++ [0x55] :=
  ⟨by decide, by decide, rfl, by decide, by decide⟩

/-- Two frames of 4 and 5 bytes in the 9 usable slots of a ring of 10. -/
theorem witness_BacklogOfTwoFramesIsReceivedOneAtATime :
    (start 10 255).consumerFree ∧ (start 10 255).ringInRange ∧ (start 10 255).inState .idle ∧
    (start 10 255).rbHead = (start 10 255).rbTail ∧ ([] : List Byte).length ≤ (start 10 255).cfg.maxDataLength ∧
    [(7 : Byte)].length ≤ (start 10 255).cfg.maxDataLength ∧
    (([] : List Byte).length + 4) + ([(7 : Byte)].length + 4) ≤ (start 10 255).cfg.rbUsable :=
  ⟨by decide, by decide, rfl, rfl, by decide, by decide, by decide⟩

theorem witness_TakeFrameReturnsThePendingFrame :
    ((start 4 2).consumerFree ∧ (start 4 2).ibReady = false) ∧
    pending.consumerFree ∧ pending.ibReady = true ∧ pending.ibLen.toNat ≤ pending.cfg.maxDataLength := by decide

theorem witness_SecondTakeFindsNothing : ∃ t, exec .takeFrame pending = .next t := ⟨_, rfl⟩

/-- For OnlyTakeAndInitLeaveFrameComplete. -/
theorem witness_OnlyTakeAndInitLeaveFrameComplete :
    pending.inState .frameComplete ∧
    ∃ t, agentStep (issue .takeFrame) pending = .next t ∧ ¬ t.inState .frameComplete :=
  ⟨rfl, _, rfl, by unfold State.inState; decide⟩

theorem witness_OnlyTheParserTakeAndInitWriteTheParser :
    (∃ t, agentStep (issue .process) (start 4 2) = .next t) ∧ issue .process ≠ .processMicro ∧
    (∀ b, decode (encode .process) ≠ .ok (.parseStep b)) ∧ decode (encode .process) ≠ .ok .takeFrame ∧
    decode (encode .process) ≠ .ok .init := by
  refine ⟨⟨_, rfl⟩, by decide, fun b h => ?_, fun h => ?_, fun h => ?_⟩ <;> cases h

/-- The flag set by a checksum byte, and cleared by the TAIL. -/
theorem witness_ChecksumFlagIsSetOnlyByAMatchingByte :
    ((parser 2 .lengthReceived 0 0 0 false).pCsOk = false ∧
      ∃ t, agentStep (issue (.parseStep 0)) (parser 2 .lengthReceived 0 0 0 false) = .next t ∧ t.pCsOk = true) ∧
    (parser 2 .dataReceiving 0 0 0 true).pCsOk = true ∧
    ∃ t, agentStep (issue (.parseStep 0xBB)) (parser 2 .dataReceiving 0 0 0 true) = .next t ∧
      t.pCsOk = false :=
  ⟨⟨rfl, _, rfl, rfl⟩, rfl, _, rfl, rfl⟩

theorem witness_InitPutsEveryRegisterAtItsResetValue : pending.consumerFree := by decide

theorem witness_StartAndStopOnlySendARequest : full.consumerFree ∧ full.ringInRange := by decide

theorem witness_ResetMeetsTheInvariant :
    Config.legal ⟨2, 255, 0xAA, 0xBB⟩ = true ∧ Config.legal ⟨2, 0, 0xAA, 0xAA⟩ = true := by decide

/-- Also for StepKeepsTheParameters. -/
theorem witness_StepKeepsTheInvariant : midFrame.Inv ∧ ∃ t, step midFrame = .next t :=
  ⟨witness_Inv_midFrame, _, rfl⟩

theorem witness_InstancesShareNoState :
    ∃ ts, stepInstance 1 [start 4 2, scheduled (producer 0x1AA), full] = some (.next ts) := ⟨_, rfl⟩

end Sys2Proof.Machine.Tests
end

/-! ### An illegal build refuses every request and every agent's step (00_scope.md R9, R10; I23) -/

namespace Sys2Proof

theorem Config.legal_eq_false_iff (c : Config) :
    c.legal = false ↔ 255 < c.maxDataLength ∨ c.rbSize < 2 := by
  rw [← Bool.not_eq_true, Config.legal_iff]
  omega

end Sys2Proof

namespace Sys2Proof.Machine

section IllegalBuild

variable {s : State} (h : s.cfg.legal = false)
include h

theorem inLegalBuild_of_illegal (k : Result) : inLegalBuild s k = .refused .illegalConfig := by
  simp [inLegalBuild, h]

theorem onProducerPort_of_illegal (k : Result) : onProducerPort s k = .refused .illegalConfig :=
  inLegalBuild_of_illegal h k

/-- The build is looked at before `c_op`: an illegal build is refused as such even where the Consumer is
busy too. -/
theorem onConsumerPort_of_illegal (k : Result) : onConsumerPort s k = .refused .illegalConfig :=
  inLegalBuild_of_illegal h _

/-- RB_WRITE is behind the Producer port's guard and the other eleven behind the Consumer port's. -/
theorem exec_of_illegal (i : Instr) : exec i s = .refused .illegalConfig := by
  cases i with
  | rbWrite b => exact onProducerPort_of_illegal h _
  | rbRead | rbAvailable | checksum | encode | send | parseStep | process | takeFrame | init | startRx
  | stopRx => exact onConsumerPort_of_illegal h _

theorem sinkAnswers_of_illegal (ok : Bool) : sinkAnswers ok s = .refused .illegalConfig :=
  inLegalBuild_of_illegal h _

theorem processMicro_of_illegal : processMicro s = .refused .illegalConfig :=
  inLegalBuild_of_illegal h _

theorem sendComplete_of_illegal : sendComplete s = .refused .illegalConfig :=
  inLegalBuild_of_illegal h _

end IllegalBuild

/-- Settles O11: every operation and every agent's own step stands behind the guard `inLegalBuild`. -/
theorem illegalBuildIsRefused : Obligations.IllegalBuildIsRefused := by
  intro s hs
  have h : s.cfg.legal = false := s.cfg.legal_eq_false_iff.mpr hs
  exact ⟨exec_of_illegal h, sinkAnswers_of_illegal h, processMicro_of_illegal h, sendComplete_of_illegal h⟩

end Sys2Proof.Machine

/-! ### The ring's operations, with the indices in range and out of it (40_ring_buffer.md R102, R106,
R108; 93_implementation_defined.md I22) -/

namespace Sys2Proof.Machine

@[simp] theorem State.unread_emit (s : State) (o : Output) : (s.emit o).unread = s.unread := rfl

theorem State.ringInRange.ringPut {s : State} (hr : s.ringInRange) (b : Byte) :
    (s.ringPut b).ringInRange :=
  ⟨Config.ringNext_lt hr.1, State.ringPut_tail_lt hr.2⟩

theorem State.ringInRange.ringAdvance {s : State} (hr : s.ringInRange) : s.ringAdvance.ringInRange :=
  ⟨hr.1, Config.ringNext_lt hr.2⟩

theorem exec_rbWrite_of_inRange {s : State} (hl : s.cfg.legal = true) (hr : s.ringInRange) (b : Byte) :
    exec (.rbWrite b) s = .next (s.ringPut b) := by
  show onProducerPort s (ofExcept (ringWrite b s)) = _
  rw [ringWrite_ok_iff.2 ⟨hr, rfl⟩]
  exact inLegalBuild_of_legal hl _

section FreeConsumer

variable {s : State} (hf : s.consumerFree)
include hf

theorem exec_rbRead_of_empty (hr : s.ringInRange) (he : s.rbHead = s.rbTail) :
    exec .rbRead s = .next (s.emit (.rbRead false 0x00)) := by
  show execRbRead s = _
  rw [execRbRead, onConsumerPort_of_free hf.1 hf.2,
    ringRead_of_empty ((State.ringIndicesInRange_iff s).2 hr) he]
  rfl

theorem exec_rbRead_of_nonempty (hr : s.ringInRange) (he : s.rbHead ≠ s.rbTail) :
    exec .rbRead s = .next (s.ringAdvance.emit (.rbRead true (s.slot .rbBuf s.rbTail))) := by
  show execRbRead s = _
  rw [execRbRead, onConsumerPort_of_free hf.1 hf.2,
    ringRead_of_nonempty ((State.ringIndicesInRange_iff s).2 hr) he]
  rfl

theorem exec_rbAvailable_of_inRange (hr : s.ringInRange) :
    exec .rbAvailable s = .next (s.emit (.rbAvailable (!s.ringEmpty))) := by
  show execRbAvailable s = _
  rw [execRbAvailable, onConsumerPort_of_free hf.1 hf.2, if_pos ((State.ringIndicesInRange_iff s).2 hr)]
  rfl

end FreeConsumer

/-- Settles O13: each of the three operations looks at both indices before it does anything. -/
theorem ringIndexOutOfRangeFaults : Obligations.RingIndexOutOfRangeFaults := by
  intro s hf hout
  have hr : ¬ s.ringIndicesInRange = true := by
    rw [State.ringIndicesInRange_iff]
    omega
  refine ⟨fun b => ?_, ?_, ?_⟩
  · show onProducerPort s (ofExcept (ringWrite b s)) = _
    rw [ringWrite, if_neg hr]
    exact inLegalBuild_of_legal hf.1 _
  · show execRbRead s = _
    rw [execRbRead, onConsumerPort_of_free hf.1 hf.2, ringRead_of_out_of_range hr]
  · show execRbAvailable s = _
    rw [execRbAvailable, onConsumerPort_of_free hf.1 hf.2, if_neg hr]

/-- The ring is full exactly when it holds RB_USABLE unread bytes (R9, R102). -/
theorem State.ringFull_iff_unread_length {s : State} (hr : s.ringInRange) :
    s.ringFull = true ↔ s.unread.length = s.cfg.rbUsable := by
  have hpos : s.rbHead < s.cfg.rbSize := hr.1
  rw [State.ringFull_iff_count hr.1 hr.2, State.unread_length, Config.rbUsable]
  omega

theorem State.ringEmpty_eq_unread_isEmpty {s : State} (hr : s.ringInRange) :
    s.ringEmpty = s.unread.isEmpty := by
  rw [Bool.eq_iff_iff, State.ringEmpty_iff_count hr.1 hr.2, List.isEmpty_iff_length_eq_zero,
    State.unread_length]

/-- Settles O18: the laws of the unread bytes (`unread_ringPut`, `unread_ringAdvance`), one for each
operation of the ring. -/
theorem ringRefinesABoundedFifo : Obligations.RingRefinesABoundedFifo := by
  intro s hf hr
  have h2 : 2 ≤ s.cfg.rbSize := ((Config.legal_iff _).1 hf.1).1
  refine ⟨fun b => ?_, ?_, ?_⟩
  · refine ⟨_, exec_rbWrite_of_inRange hf.1 hr b, hr.ringPut b, ?_⟩
    rw [State.unread_ringPut h2 hr.1 hr.2 b]
    simp only [State.ringFull_iff_unread_length hr]
  · by_cases he : s.rbHead = s.rbTail
    · refine ⟨_, exec_rbRead_of_empty hf hr he, hr, ?_⟩
      simp [State.unread_of_empty hr.1 hr.2 he]
    · refine ⟨_, exec_rbRead_of_nonempty hf hr he, hr.ringAdvance, ?_⟩
      simp [State.unread_ringAdvance hr.1 hr.2 he]
  · refine ⟨_, exec_rbAvailable_of_inRange hf hr, rfl, ?_⟩
    rw [State.emit_outputs, State.ringEmpty_eq_unread_isEmpty hr]

end Sys2Proof.Machine

/-! ### The invariant's two halves: the core's part, which no field of the Consumer port enters, and the
port's bookkeeping (10_state.md R24 to R34) -/

namespace Sys2Proof.Machine

/-- The invariant without the Consumer port's bookkeeping. -/
structure State.CoreInv (s : State) : Prop where
  legal  : s.cfg.legal = true
  arrays : ∀ a, s.arrayOk a
  ring   : s.RingInv
  parser : s.ParserInv
  inbox  : s.InboxInv

theorem State.inv_iff (s : State) : s.Inv ↔ s.CoreInv ∧ s.PortInv :=
  ⟨fun ⟨hl, ha, hr, hp, hi, hport⟩ => ⟨⟨hl, ha, hr, hp, hi⟩, hport⟩,
    fun ⟨⟨hl, ha, hr, hp, hi⟩, hport⟩ => ⟨hl, ha, hr, hp, hi, hport⟩⟩

/-- The core's part of the invariant does not look at the Consumer port, at the Sink's answer, at what
was sent out, or at the schedule and the turn. -/
theorem State.CoreInv.withPort {s : State} (h : s.CoreInv) (op : ConsumerOp)
    (sent : Option (List Byte × Timeout)) (answer : Option Bool) (outs : List Output)
    (sched : List AgentStep) (turn : Nat) :
    State.CoreInv
      { s with
        cOp := op, cSend := sent, sinkAnswer := answer, outputs := outs, schedule := sched,
        turn := turn } where
  legal := h.legal
  arrays := State.arrays_congr h.arrays rfl rfl rfl rfl
  ring := h.ring.congr rfl rfl rfl rfl
  parser := h.parser.congr rfl rfl rfl rfl rfl rfl rfl rfl
  inbox := h.inbox.congr rfl rfl rfl rfl rfl rfl

theorem State.CoreInv.emit {s : State} (h : s.CoreInv) (o : Output) : (s.emit o).CoreInv :=
  h.withPort _ _ _ _ _ _

/-! ### The port's bookkeeping -/

theorem State.PortInv.congr {s t : State} (h : s.PortInv) (hcfg : t.cfg = s.cfg)
    (hst : t.pState = s.pState) (hop : t.cOp = s.cOp) (hsend : t.cSend = s.cSend)
    (hans : t.sinkAnswer = s.sinkAnswer) : t.PortInv := by
  obtain ⟨a, b, c, d⟩ := h
  constructor <;> simp only [State.inState, hcfg, hst, hop, hsend, hans] <;> assumption

/-- With no SEND in progress, no frame is with the Sink and no answer of it stands. -/
theorem State.PortInv.nothing_sent {s : State} (h : s.PortInv) (hc : s.cOp ≠ .inSend) :
    s.cSend = none ∧ s.sinkAnswer = none := by
  refine ⟨Option.not_isSome_iff_eq_none.1 fun hs => hc (h.send_iff.1 hs),
    Option.not_isSome_iff_eq_none.1 fun hs => hc (h.answer_inSend hs)⟩

/-- With no SEND in progress the bookkeeping asks that nothing is with the Sink, and that a PROCESS in
progress has no frame pending. -/
theorem State.PortInv.of_nothing_sent {t : State} (hc : t.cOp ≠ .inSend) (hs : t.cSend = none)
    (ha : t.sinkAnswer = none) (hp : t.cOp = .inProcess → ¬ t.inState .frameComplete) : t.PortInv := by
  constructor <;> simp_all

/-! ### The operations on the ring and the registers keep the core's part -/

theorem State.arrayOk.set {s : State} {a : ArrayId} (h : s.arrayOk a) {i : Nat} (v : Byte)
    (hi : i < s.cfg.slots a) :
    ((s.array a).set i v).wf ∧ ∀ c ∈ (s.array a).set i v, c.1 < s.cfg.slots a :=
  ⟨Memory.wf_set h.1 i v, Memory.bound_set h.2 hi⟩

theorem State.CoreInv.ringPut {s : State} (h : s.CoreInv) (b : Byte) : (s.ringPut b).CoreInv where
  legal := h.legal
  arrays
    | .rbBuf => (h.arrays .rbBuf).set b h.ring.head_lt
    | .pBuf  => h.arrays .pBuf
    | .ibBuf => h.arrays .ibBuf
  ring := h.ring.ringPut b ((Config.legal_iff _).1 h.legal).1
  parser := h.parser.congr rfl rfl rfl rfl rfl rfl rfl rfl
  inbox := h.inbox.congr rfl rfl rfl rfl rfl rfl

theorem State.CoreInv.ringAdvance {s : State} (h : s.CoreInv) (hne : s.rbHead ≠ s.rbTail) :
    s.ringAdvance.CoreInv where
  legal := h.legal
  arrays := State.arrays_congr h.arrays rfl rfl rfl rfl
  ring := h.ring.ringAdvance hne
  parser := h.parser.congr rfl rfl rfl rfl rfl rfl rfl rfl
  inbox := h.inbox.congr rfl rfl rfl rfl rfl rfl

theorem State.RingInv.of_indices_zero {t : State} (hl : t.cfg.legal = true) (hh : t.rbHead = 0)
    (ht : t.rbTail = 0) : t.RingInv := by
  have h2 : 2 ≤ t.cfg.rbSize := ((Config.legal_iff _).1 hl).1
  refine ⟨by omega, by omega, fun k hk => ?_⟩
  simp [State.ringCount, hh, ht] at hk

/-- A state in Idle with nothing accepted and nothing pending asks nothing of the parser's registers. -/
theorem State.CoreInv.of_idle {t : State} (hl : t.cfg.legal = true) (ha : ∀ a, t.arrayOk a)
    (hr : t.RingInv) (hst : t.inState .idle) (hc : t.pCsOk = false) (hi : t.ibReady = false) :
    t.CoreInv where
  legal := hl
  arrays := ha
  ring := hr
  parser := .of_idle hst hc
  inbox := .of_nothing_pending hi fun hf => by cases State.inState_unique hst hf

theorem State.CoreInv.initRegisters {s : State} (h : s.CoreInv) : s.initRegisters.CoreInv :=
  .of_idle h.legal (State.arrays_congr h.arrays rfl rfl rfl rfl) (.of_indices_zero h.legal rfl rfl)
    rfl rfl rfl

theorem State.CoreInv.takeInbox {s : State} (h : s.CoreInv) : s.takeInbox.CoreInv :=
  .of_idle h.legal (State.arrays_congr h.arrays rfl rfl rfl rfl) (h.ring.congr rfl rfl rfl rfl)
    rfl rfl rfl

theorem State.CoreInv.resetWith {c : Config} (hl : c.legal = true) (d : Nat) :
    (State.resetWith c d).CoreInv := by
  refine .of_idle hl (fun a => ?_) (.of_indices_zero hl rfl rfl) rfl rfl rfl
  cases a <;> exact ⟨List.Pairwise.nil, fun c hc => by cases hc⟩

/-- Settles O52: at reset the arrays list no slot, the ring is empty, the parser is in Idle, and the
Consumer port is free. -/
theorem resetMeetsTheInvariant : Obligations.ResetMeetsTheInvariant := by
  have hreset : ∀ (c : Config) (d : Nat), c.legal = true → (State.resetWith c d).Inv := fun c d hl =>
    (State.inv_iff _).2 ⟨.resetWith hl d, .of_nothing_sent (by simp [State.resetWith]) rfl rfl nofun⟩
  exact ⟨hreset, hreset _ _ (by decide)⟩

/-! ### Each transition of the parser keeps the core's part (43_parser.md R169) -/

/-- A step that writes parser registers and `p_buf` only, while no frame is pending, keeps the core's part
when it leaves the parser's part true. -/
theorem State.CoreInv.of_parser_written {s t : State} {q : ParserState} (h : s.CoreInv)
    (hframe : t = { s with
      pState := t.pState, pExpected := t.pExpected, pReceived := t.pReceived, pSum := t.pSum
      pCsOk := t.pCsOk, pBuf := t.pBuf })
    (hready : s.ibReady = false) (hst : t.inState q) (hq : q ≠ .frameComplete)
    (hbuf : t.arrayOk .pBuf) (hp : t.ParserInv) : t.CoreInv := by
  have hcfg : t.cfg = s.cfg := by rw [hframe]
  refine ⟨hcfg ▸ h.legal, fun a => ?_, ?_, hp, ?_⟩
  · cases a with
    | pBuf => exact hbuf
    | rbBuf => rw [hframe]; exact h.arrays .rbBuf
    | ibBuf => rw [hframe]; exact h.arrays .ibBuf
  · rw [hframe]
    exact h.ring.congr rfl rfl rfl rfl
  · exact .of_nothing_pending (by rw [hframe]; exact hready) fun hf => hq (State.inState_unique hst hf)

theorem State.CoreInv.resync {s : State} (h : s.CoreInv) (hready : s.ibReady = false) :
    s.resync.CoreInv :=
  .of_idle h.legal (State.arrays_congr h.arrays rfl rfl rfl rfl) (h.ring.congr rfl rfl rfl rfl) rfl rfl
    hready

/-- The next payload byte stored, counted and summed (R158 with `p_received = 0`, R159). -/
def State.storeNext (s : State) (b : Byte) : State :=
  { s with
    pBuf := s.pBuf.set s.pReceived.toNat b, pReceived := s.pReceived + 1, pSum := s.pSum + b
    pState := ParserState.dataReceiving.code }

theorem State.payloadSoFar_storeNext {s : State} (b : Byte) (hlt : s.pReceived < s.pExpected) :
    (s.storeNext b).payloadSoFar = s.payloadSoFar ++ [b] := by
  have hn : (s.pReceived + 1).toNat = s.pReceived.toNat + 1 := by bv_omega
  have hold : ∀ i, i < s.pReceived.toNat → (s.storeNext b).slot .pBuf i = s.slot .pBuf i := fun i hi => by
    simp [State.slot, State.storeNext, Memory.lookup_set_of_ne _ b (Nat.ne_of_lt hi)]
  have hnew : (s.storeNext b).slot .pBuf s.pReceived.toNat = b :=
    State.slot_of_lookup (Memory.lookup_set_self ..)
  show (s.storeNext b).slots .pBuf (s.pReceived + 1).toNat = s.slots .pBuf s.pReceived.toNat ++ [b]
  rw [hn, State.slots_succ, State.slots_congr hold, hnew]

/-- With room below `p_expected`, a stored byte keeps the parser's clauses (d) and (e). -/
theorem State.ParserInv.storeNext {s : State} (b : Byte) (hlt : s.pReceived < s.pExpected)
    (hmax : s.pExpected.toNat ≤ s.cfg.maxDataLength) (hc : s.pCsOk = false)
    (hsum : s.pSum = checksum (s.pExpected :: s.payloadSoFar))
    (hw : ∀ i, i < s.pReceived.toNat → s.written .pBuf i) : (s.storeNext b).ParserInv := by
  have hn : (s.pReceived + 1).toNat = s.pReceived.toNat + 1 := by bv_omega
  refine .of_dataReceiving rfl hmax ?_ (fun _ => ?_) (fun h => ?_) ?_ fun i hi => ?_
  · show s.pReceived + 1 ≤ s.pExpected
    bv_omega
  · show 1 ≤ s.pReceived + 1
    bv_omega
  · exact absurd (hc.symm.trans h) (by decide)
  · rw [State.payloadSoFar_storeNext b hlt]
    show s.pSum + b = checksum ((s.pExpected :: s.payloadSoFar) ++ [b])
    rw [checksum_concat, hsum]
  · replace hi : i < (s.pReceived + 1).toNat := hi
    show ((s.pBuf.set s.pReceived.toNat b).lookup i).isSome = true
    rw [Memory.lookup_set]
    split
    · rfl
    · exact hw i (by omega)

theorem State.CoreInv.storeNext {s : State} (h : s.CoreInv) (b : Byte) (hready : s.ibReady = false)
    (hlt : s.pReceived < s.pExpected) (hmax : s.pExpected.toNat ≤ s.cfg.maxDataLength)
    (hp : (s.storeNext b).ParserInv) : (s.storeNext b).CoreInv :=
  h.of_parser_written (q := .dataReceiving) rfl hready rfl nofun
    ((h.arrays .pBuf).set b (show s.pReceived.toNat < s.cfg.maxDataLength by bv_omega)) hp

/-- The state after publication (R161). -/
def State.published (s : State) : State :=
  { s with
    ibBuf := s.ibBuf.fill (s.slot .pBuf) s.pExpected.toNat, ibLen := s.pExpected
    ibReady := true, pState := ParserState.frameComplete.code, pCsOk := false }

/-- Publication makes the Inbox the payload of the frame, every byte of which has been written (R33). -/
theorem State.CoreInv.published {s : State} (h : s.CoreInv)
    (hmax : s.pExpected.toNat ≤ s.cfg.maxDataLength)
    (hw : ∀ i, i < s.pExpected.toNat → s.written .pBuf i) : s.published.CoreInv where
  legal := h.legal
  arrays
    | .rbBuf => h.arrays .rbBuf
    | .pBuf  => h.arrays .pBuf
    | .ibBuf => ⟨Memory.wf_fill (h.arrays .ibBuf).1 _ _, Memory.bound_fill (h.arrays .ibBuf).2 _ _ hmax⟩
  ring := h.ring.congr rfl rfl rfl rfl
  parser := .of_frameComplete rfl rfl hmax hw
  inbox :=
    { ready_iff := iff_of_true rfl rfl
      len_eq := fun _ => rfl
      payload_eq := fun _ i hi => by
        obtain ⟨v, hv⟩ := Option.isSome_iff_exists.1 (hw i hi)
        show (s.ibBuf.fill (s.slot .pBuf) s.pExpected.toNat).lookup i = (s.array .pBuf).lookup i
        rw [Memory.lookup_fill, hv, State.slot_of_lookup hv]
        exact if_pos hi }

theorem ParseCase.coreInv {b : Byte} {s t : State} {ready : Bool} (hpc : ParseCase b s ready t)
    (h : s.CoreInv) : t.CoreInv := by
  have hready : ∀ {p}, s.inState p → p ≠ .frameComplete → s.ibReady = false := h.inbox.ready_eq_false
  have hcsOk : ∀ {p}, s.inState p → p ≠ .dataReceiving → s.pCsOk = false := h.parser.csOk_eq_false
  cases hpc with
  | r152 hs =>
    exact h.of_parser_written (q := .headFound) rfl (hready hs nofun) rfl nofun (h.arrays .pBuf)
      (.of_headFound rfl rfl rfl)
  | r153 | r165 => exact h
  | r154 hs hb =>
    exact h.of_parser_written (q := .lengthReceived) rfl (hready hs nofun) rfl nofun (h.arrays .pBuf)
      (.of_lengthReceived rfl (hcsOk hs nofun) (h.parser.headFound_fresh hs) hb rfl)
  | r155 hs | r157 hs | r162 hs | r164 hs => exact h.resync (hready hs nofun)
  | r156 hs he =>
    have h0 : s.pReceived = 0 := h.parser.lengthReceived_fresh hs
    have hsum : s.pSum = checksum (s.pExpected :: s.payloadSoFar) := h.parser.sum_tracks (.inl hs)
    have heq : s.pReceived = s.pExpected := h0.trans he.symm
    refine h.of_parser_written (q := .dataReceiving) rfl (hready hs nofun) rfl nofun (h.arrays .pBuf)
      (.of_dataReceiving rfl (h.parser.expected_le (.inl hs)) (BitVec.le_of_eq heq) (fun h1 => heq ▸ h1)
        (fun _ => heq) hsum fun i hi => ?_)
    simp [h0] at hi
  | r158 hs he =>
    have h0 : s.pReceived = 0 := h.parser.lengthReceived_fresh hs
    have hlt : s.pReceived < s.pExpected := by bv_omega
    have hmax := h.parser.expected_le (.inl hs)
    have hstore := h.storeNext b (hready hs nofun) hlt hmax
      (.storeNext b hlt hmax (hcsOk hs nofun) (h.parser.sum_tracks (.inl hs)) fun i hi => by simp [h0] at hi)
    simpa [State.storeNext, h0] using hstore
  | r159 hs hc hlt =>
    have hmax := h.parser.expected_le (.inr (.inl hs))
    exact h.storeNext b (hready hs nofun) hlt hmax
      (.storeNext b hlt hmax hc (h.parser.sum_tracks (.inr hs)) (h.parser.received_written hs))
  | r160 hs hc hopen =>
    have hle : s.pReceived ≤ s.pExpected := h.parser.received_le hs
    exact h.of_parser_written rfl (hready hs nofun) hs nofun (h.arrays .pBuf)
      (.of_dataReceiving hs (h.parser.expected_le (.inr (.inl hs))) hle (h.parser.received_pos hs)
        (fun _ => by bv_omega) (h.parser.sum_tracks (.inr hs)) (h.parser.received_written hs))
  | r161 hs hc =>
    have hall : s.pReceived = s.pExpected := h.parser.received_all hs hc
    exact h.published (h.parser.expected_le (.inr (.inl hs))) (hall ▸ h.parser.received_written hs)

end Sys2Proof.Machine

/-! ### Every step keeps the invariant (60_exceptions.md R225) -/

namespace Sys2Proof.Machine

theorem ExecCase.coreInv {s t : State} {i : Instr} (hx : ExecCase s i t) (h : s.CoreInv) : t.CoreInv := by
  cases hx with
  | rbWrite b => exact h.ringPut b
  | rbReadSome _ hne => exact (h.ringAdvance hne).emit _
  | send | processStart => exact h.withPort _ _ _ _ _ _
  | parseStep b ready u hpc => exact (hpc.coreInv h).emit _
  | takeFrame => exact h.takeInbox.emit _
  | init => exact h.initRegisters
  | rbReadNone | rbAvailable | checksum | encode | encodeTooLarge | sendTooLarge | processPending
  | takeNothing | startRx | stopRx => exact h.emit _

theorem ExecCase.portInv {s t : State} {i : Instr} (hx : ExecCase s i t) (h : s.PortInv)
    (hc : (∃ b, i = .rbWrite b) ∨ s.cOp = .none) : t.PortInv := by
  have hfree : s.cOp = .none → s.cOp ≠ .inSend ∧ s.cOp ≠ .inProcess ∧ s.cSend = none ∧
      s.sinkAnswer = none := fun hn => ⟨by simp [hn], by simp [hn], h.nothing_sent (by simp [hn])⟩
  cases hx with
  | send p tm hp =>
    exact ⟨iff_of_true rfl rfl, fun f t hft => ⟨p, hp, by cases hft; rfl⟩, fun _ => rfl, nofun⟩
  | parseStep b ready u hpc =>
    obtain ⟨hsend, hproc, hnone, hans⟩ := hfree (hc.resolve_left nofun)
    obtain ⟨-, -, -, -, hop, hcs, hsa, -⟩ := hpc.frame
    exact .of_nothing_sent (by simpa [hop] using hsend) (hcs.trans hnone) (hsa.trans hans)
      fun hp => absurd (hop.symm.trans hp) hproc
  | processStart hst =>
    obtain ⟨-, -, hnone, hans⟩ := hfree (hc.resolve_left nofun)
    exact .of_nothing_sent nofun hnone hans fun _ => hst
  | takeFrame | init =>
    obtain ⟨hsend, hproc, hnone, hans⟩ := hfree (hc.resolve_left nofun)
    exact .of_nothing_sent hsend hnone hans fun hp => absurd hp hproc
  | rbWrite | rbReadNone | rbReadSome | rbAvailable | checksum | encode | encodeTooLarge | sendTooLarge
  | processPending | takeNothing | startRx | stopRx => exact h.congr rfl rfl rfl rfl rfl

/-- A byte that completes no frame does not lead into FrameComplete. -/
theorem ParseCase.not_frameComplete {b : Byte} {s t : State} (hpc : ParseCase b s false t)
    (hs : ¬ s.inState .frameComplete) : ¬ t.inState .frameComplete := by
  have hcode : ∀ p : ParserState, p ≠ .frameComplete → p.code ≠ ParserState.frameComplete.code :=
    fun p hp h => hp (ParserState.code_injective h)
  cases hpc with
  | r152 => exact hcode .headFound nofun
  | r154 => exact hcode .lengthReceived nofun
  | r156 | r158 | r159 => exact hcode .dataReceiving nofun
  | r155 | r157 | r162 | r164 => exact hcode .idle nofun
  | r153 | r160 | r165 => exact hs

theorem MicroCase.inv {s t : State} (hm : MicroCase s t) (h : s.Inv) (hc : s.cOp = .inProcess) :
    t.Inv := by
  obtain ⟨hcore, hport⟩ := s.inv_iff.1 h
  obtain ⟨hnone, hans⟩ := hport.nothing_sent (by simp [hc])
  rw [State.inv_iff]
  cases hm with
  | empty => exact ⟨hcore.withPort _ _ _ _ _ _, .of_nothing_sent nofun hnone hans nofun⟩
  | frame u hne hpc =>
    obtain ⟨-, -, -, -, -, hcs, hsa, -⟩ := hpc.frame
    exact ⟨(hpc.coreInv (hcore.ringAdvance hne)).withPort _ _ _ _ _ _,
      .of_nothing_sent nofun (hcs.trans hnone) (hsa.trans hans) nofun⟩
  | more _ hne hpc =>
    obtain ⟨-, -, -, -, hop, hcs, hsa, -⟩ := hpc.frame
    exact ⟨hpc.coreInv (hcore.ringAdvance hne),
      .of_nothing_sent (by simp [hop, hc]) (hcs.trans hnone) (hsa.trans hans)
        fun _ => hpc.not_frameComplete (hport.process_open hc)⟩

theorem exec_inv {i : Instr} {s t : State} (h : s.Inv) (hx : exec i s = .next t) : t.Inv := by
  obtain ⟨hcore, hport⟩ := s.inv_iff.1 h
  obtain ⟨-, hc, hcase⟩ := exec_cases hx
  exact (State.inv_iff t).2 ⟨hcase.coreInv hcore, hcase.portInv hport hc⟩

theorem sinkAnswers_inv {ok : Bool} {s t : State} (h : s.Inv) (hx : sinkAnswers ok s = .next t) :
    t.Inv := by
  obtain ⟨hcore, hsend, hframe, -, hproc⟩ := s.inv_iff.1 h
  obtain ⟨-, hop, -, -, rfl⟩ := sinkAnswers_cases hx
  exact (State.inv_iff _).2 ⟨hcore.withPort _ _ _ _ _ _, hsend, hframe, fun _ => hop, hproc⟩

theorem sendComplete_inv {s t : State} (h : s.Inv) (hx : sendComplete s = .next t) : t.Inv := by
  obtain ⟨hcore, -⟩ := s.inv_iff.1 h
  obtain ⟨-, -, ok, -, rfl⟩ := sendComplete_cases hx
  exact (State.inv_iff _).2 ⟨hcore.withPort _ _ _ _ _ _, .of_nothing_sent nofun rfl rfl nofun⟩

theorem agentStep_inv {a : AgentStep} {s t : State} (h : s.Inv) (hx : agentStep a s = .next t) :
    t.Inv := by
  obtain ⟨r, i, -, -, hi⟩ | ⟨-, hm⟩ | ⟨ok, -, ha⟩ | ⟨-, hc⟩ := agentStep_cases hx
  · exact exec_inv h hi
  · obtain ⟨-, hop, -, hcase⟩ := processMicro_cases hm
    exact hcase.inv h hop
  · exact sinkAnswers_inv h ha
  · exact sendComplete_inv h hc

/-- The invariant looks at neither the schedule nor the turn. -/
theorem State.Inv.withScheduleTurn {s : State} (h : s.Inv) (sched : List AgentStep) (turn : Nat) :
    State.Inv { s with schedule := sched, turn := turn } := by
  obtain ⟨hcore, hport⟩ := s.inv_iff.1 h
  exact (State.inv_iff _).2 ⟨hcore.withPort _ _ _ _ _ _, hport.congr rfl rfl rfl rfl rfl⟩

/-- Settles O53: an agent's step keeps the invariant (`agentStep_inv`), and taking it from the schedule or
from the environment touches no field of the invariant. -/
theorem stepKeepsTheInvariant : Obligations.StepKeepsTheInvariant := by
  intro s t h hstep
  obtain ⟨a, rest, -, ha⟩ | ⟨-, ha⟩ | ⟨-, -, rfl⟩ := step_cases hstep
  · exact agentStep_inv (h.withScheduleTurn _ _) ha
  · exact agentStep_inv (h.withScheduleTurn _ _) ha
  · exact h.withScheduleTurn _ _

/-! ### No step changes the parameters or the draw (10_state.md R21) -/

theorem ExecCase.cfg_draw {s t : State} {i : Instr} (hx : ExecCase s i t) :
    t.cfg = s.cfg ∧ t.draw = s.draw := by
  cases hx with
  | parseStep b ready u hpc =>
    obtain ⟨hcfg, -, -, -, -, -, -, -, -, hdraw, -⟩ := hpc.frame
    exact ⟨hcfg, hdraw⟩
  | _ => exact ⟨rfl, rfl⟩

theorem MicroCase.cfg_draw {s t : State} (hm : MicroCase s t) : t.cfg = s.cfg ∧ t.draw = s.draw := by
  cases hm with
  | empty => exact ⟨rfl, rfl⟩
  | frame u _ hpc | more u _ hpc =>
    obtain ⟨hcfg, -, -, -, -, -, -, -, -, hdraw, -⟩ := hpc.frame
    exact ⟨hcfg, hdraw⟩

theorem agentStep_cfg_draw {a : AgentStep} {s t : State} (h : agentStep a s = .next t) :
    t.cfg = s.cfg ∧ t.draw = s.draw := by
  obtain ⟨r, i, -, -, hi⟩ | ⟨-, hm⟩ | ⟨ok, -, ha⟩ | ⟨-, hc⟩ := agentStep_cases h
  · obtain ⟨-, -, hcase⟩ := exec_cases hi
    exact hcase.cfg_draw
  · obtain ⟨-, -, -, hcase⟩ := processMicro_cases hm
    exact hcase.cfg_draw
  · obtain ⟨-, -, -, -, rfl⟩ := sinkAnswers_cases ha
    exact ⟨rfl, rfl⟩
  · obtain ⟨-, -, ok, -, rfl⟩ := sendComplete_cases hc
    exact ⟨rfl, rfl⟩

/-- Settles O55: no agent's step writes either field, and neither does an idle turn. -/
theorem stepKeepsTheParameters : Obligations.StepKeepsTheParameters := by
  intro s t hstep
  obtain ⟨a, rest, -, ha⟩ | ⟨-, ha⟩ | ⟨-, -, rfl⟩ := step_cases hstep
  · exact (agentStep_cfg_draw ha :)
  · exact (agentStep_cfg_draw ha :)
  · exact ⟨rfl, rfl⟩

/-! ### The writes of `p_cs_ok` (10_state.md R28) -/

/-- The byte `b` is the checksum byte that the parser waits for (R156, R160). -/
def State.checksumByteDue (s : State) (b : Byte) : Prop :=
  (s.inState .lengthReceived ∧ s.pExpected = 0 ∧ b = checksum [s.pExpected]) ∨
  (s.inState .dataReceiving ∧ s.pExpected ≤ s.pReceived ∧ b = s.pSum)

theorem ParseCase.checksumByteDue_of_csOk_set {b : Byte} {s t : State} {ready : Bool}
    (hpc : ParseCase b s ready t) (hs : s.pCsOk = false) (ht : t.pCsOk = true) :
    s.checksumByteDue b := by
  cases hpc with
  | r156 hst he hb => exact .inl ⟨hst, he, hb⟩
  | r160 hst _ hopen hb => exact .inr ⟨hst, BitVec.not_lt.1 hopen, hb⟩
  | r153 | r154 | r158 | r159 | r165 => exact absurd (hs.symm.trans ht) nofun
  | r152 | r155 | r157 | r162 | r161 | r164 => exact absurd ht nofun

theorem ExecCase.csOk_set {s t : State} {i : Instr} (hx : ExecCase s i t) (hs : s.pCsOk = false)
    (ht : t.pCsOk = true) : ∃ b, i = .parseStep b ∧ s.checksumByteDue b := by
  cases hx with
  | parseStep b ready u hpc => exact ⟨b, rfl, hpc.checksumByteDue_of_csOk_set hs ht⟩
  | takeFrame | init => exact absurd ht nofun
  | _ => exact absurd (hs.symm.trans ht) nofun

theorem ExecCase.csOk_cleared {s t : State} {i : Instr} (hx : ExecCase s i t) (hs : s.pCsOk = true)
    (ht : t.pCsOk = false) : (∃ b, i = .parseStep b) ∨ i = .takeFrame ∨ i = .init := by
  cases hx with
  | parseStep b ready u hpc => exact .inl ⟨b, rfl⟩
  | takeFrame => exact .inr (.inl rfl)
  | init => exact .inr (.inr rfl)
  | _ => exact absurd (hs.symm.trans ht) nofun

/-- The read before a micro-step's parse changes no register the parser looks at. -/
theorem MicroCase.csOk_set {s t : State} (hm : MicroCase s t) (hs : s.pCsOk = false)
    (ht : t.pCsOk = true) : s.checksumByteDue (s.slot .rbBuf s.rbTail) := by
  cases hm with
  | empty => exact absurd (hs.symm.trans ht) nofun
  | frame u _ hpc | more u _ hpc => exact hpc.checksumByteDue_of_csOk_set (s := s.ringAdvance) hs ht

/-- Settles O48: of the operations only a parsed byte sets the flag, in R156 and R160. -/
theorem checksumFlagIsSetOnlyByAMatchingByte : Obligations.ChecksumFlagIsSetOnlyByAMatchingByte := by
  intro a s t h
  obtain ⟨r, i, rfl, hd, hi⟩ | ⟨rfl, hm⟩ | ⟨ok, rfl, ha⟩ | ⟨rfl, hc⟩ := agentStep_cases h
  · obtain ⟨-, -, hcase⟩ := exec_cases hi
    refine ⟨fun hs ht => ?_, fun hs ht => .inr ⟨r, rfl, ?_⟩⟩
    · obtain ⟨b, rfl, hdue⟩ := hcase.csOk_set hs ht
      exact ⟨b, .inl ⟨r, rfl, hd⟩, hdue⟩
    · simpa [hd] using hcase.csOk_cleared hs ht
  · obtain ⟨-, -, -, hcase⟩ := processMicro_cases hm
    exact ⟨fun hs ht => ⟨_, .inr ⟨rfl, rfl⟩, hcase.csOk_set hs ht⟩, fun _ _ => .inl rfl⟩
  · obtain ⟨-, -, -, -, rfl⟩ := sinkAnswers_cases ha
    exact ⟨fun hs ht => absurd (hs.symm.trans ht) nofun, fun hs ht => absurd (hs.symm.trans ht) nofun⟩
  · obtain ⟨-, -, ok, -, rfl⟩ := sendComplete_cases hc
    exact ⟨fun hs ht => absurd (hs.symm.trans ht) nofun, fun hs ht => absurd (hs.symm.trans ht) nofun⟩

/-! ### Several cores in a list (10_state.md R23) -/

/-- A step at place `k` replaces that entry of the list by its own next state. -/
theorem stepInstance_next {ss ts : List State} {k : Nat} (h : stepInstance k ss = some (.next ts)) :
    ∃ s t, ss[k]? = some s ∧ step s = .next t ∧ ts = ss.set k t := by
  induction ss generalizing k ts with
  | nil => simp [stepInstance] at h
  | cons s rest ih =>
    cases k with
    | zero =>
      simp only [stepInstance, Option.some.injEq] at h
      split at h <;> cases h
      next t ht => exact ⟨s, t, rfl, ht, rfl⟩
    | succ k =>
      simp only [stepInstance] at h
      split at h <;> cases h
      next us hus =>
      obtain ⟨u, t, hu, ht, rfl⟩ := ih hus
      exact ⟨u, t, hu, ht, rfl⟩

/-- Settles O57: the list is the same but for place `k` (`stepInstance_next`). -/
theorem instancesShareNoState : Obligations.InstancesShareNoState := by
  intro ss ts k h
  obtain ⟨s, t, hs, ht, rfl⟩ := stepInstance_next h
  obtain ⟨hk, -⟩ := List.getElem?_eq_some_iff.1 hs
  exact ⟨List.length_set, fun j hj => List.getElem?_set_ne hj.symm, s, t, hs,
    List.getElem?_set_self hk, ht⟩

end Sys2Proof.Machine

/-! ### No step reads a slot that was never written (10_state.md R26, R33; 70_reset_and_hazards.md R243) -/

namespace Sys2Proof.Machine

/-- The same state with another draw of the reset contents. -/
def State.redraw (s : State) (d : Nat) : State := { s with draw := d }

@[simp] theorem State.redraw_rbTail (s : State) (d : Nat) : (s.redraw d).rbTail = s.rbTail := rfl
@[simp] theorem State.redraw_pState (s : State) (d : Nat) : (s.redraw d).pState = s.pState := rfl
@[simp] theorem State.redraw_pExpected (s : State) (d : Nat) : (s.redraw d).pExpected = s.pExpected := rfl
@[simp] theorem State.redraw_ibReady (s : State) (d : Nat) : (s.redraw d).ibReady = s.ibReady := rfl
@[simp] theorem State.redraw_ibLen (s : State) (d : Nat) : (s.redraw d).ibLen = s.ibLen := rfl
@[simp] theorem State.redraw_ibBuf (s : State) (d : Nat) : (s.redraw d).ibBuf = s.ibBuf := rfl
@[simp] theorem State.redraw_sinkAnswer (s : State) (d : Nat) : (s.redraw d).sinkAnswer = s.sinkAnswer := rfl

/-- Under the parser's part of the invariant every byte has a transition (R169): no fault is reached. -/
theorem State.ParserInv.exists_parseCase {s : State} (h : s.ParserInv) (b : Byte) :
    ∃ ready t, ParseCase b s ready t := by
  cases hp : parseByte b s with
  | ok r => exact ⟨r.1, r.2, parseByte_cases hp⟩
  | error f =>
    obtain ⟨hnone, -⟩ | ⟨-, ⟨hs, hne, h0⟩ | ⟨hs, -, hlt, hmax⟩ | ⟨hs, -, hmax⟩⟩ :=
      parseByte_error_cases hp
    · simpa [hnone] using h.state_legal
    · have := h.expected_le (.inl hs)
      bv_omega
    · have := h.expected_le (.inr (.inl hs))
      bv_omega
    · have := h.expected_le (.inr (.inl hs))
      omega

/-- Publication copies written slots only, so each transition is the same for every draw. -/
theorem ParseCase.redraw {b : Byte} {s t : State} {ready : Bool} (hpc : ParseCase b s ready t)
    (h : s.ParserInv) (d : Nat) : ParseCase b (s.redraw d) ready (t.redraw d) := by
  cases hpc with
  | r152 hs hb => exact .r152 hs hb
  | r153 hs hb => exact .r153 hs hb
  | r154 hs hb => exact .r154 hs hb
  | r155 hs hb => exact .r155 hs hb
  | r156 hs he hb => exact .r156 hs he hb
  | r157 hs he hb => exact .r157 hs he hb
  | r158 hs he hm => exact .r158 hs he hm
  | r159 hs hc ho hm => exact .r159 hs hc ho hm
  | r160 hs hc ho hb => exact .r160 hs hc ho hb
  | r162 hs hc ho hb => exact .r162 hs hc ho hb
  | r164 hs hc hb => exact .r164 hs hc hb
  | r165 hs => exact .r165 hs
  | r161 hs hc hb hm =>
    have hall : s.pReceived = s.pExpected := h.received_all hs hc
    have hfill : s.ibBuf.fill ((s.redraw d).slot .pBuf) s.pExpected.toNat =
        s.ibBuf.fill (s.slot .pBuf) s.pExpected.toNat :=
      Memory.fill_congr _ _ fun i hi =>
        State.slot_draw_of_written d (h.received_written hs i (hall ▸ hi))
    have hcase := ParseCase.r161 (s := s.redraw d) hs hc hb hm
    rwa [State.redraw_ibBuf, State.redraw_pExpected, hfill] at hcase

/-! ### The draw and the outcomes of the operations -/

section Redraw

variable {s : State} (d : Nat)

theorem inLegalBuild_redraw {k k' : Result} (hk : k' = onNext (State.redraw · d) k) :
    inLegalBuild (s.redraw d) k' = onNext (State.redraw · d) (inLegalBuild s k) := by
  unfold inLegalBuild
  rw [apply_ite (onNext (State.redraw · d)), hk]
  rfl

theorem onConsumerPort_redraw {k k' : Result} (hk : k' = onNext (State.redraw · d) k) :
    onConsumerPort (s.redraw d) k' = onNext (State.redraw · d) (onConsumerPort s k) := by
  refine inLegalBuild_redraw d ?_
  rw [apply_ite (onNext (State.redraw · d)), hk]
  rfl

theorem ringWrite_redraw (b : Byte) :
    ofExcept (ringWrite b (s.redraw d)) = onNext (State.redraw · d) (ofExcept (ringWrite b s)) := by
  unfold ringWrite
  rw [apply_ite ofExcept, apply_ite ofExcept, apply_ite (onNext (State.redraw · d))]
  rfl

end Redraw

theorem State.RingInv.ringIndicesInRange {s : State} (h : s.RingInv) : s.ringIndicesInRange = true :=
  (State.ringIndicesInRange_iff s).2 ⟨h.head_lt, h.tail_lt⟩

section RedrawInv

variable {s : State} (h : s.Inv) (d : Nat)
include h

/-- The byte RB_READ takes is an unread one, and its slot has been written (R26). -/
theorem slot_tail_redraw (hne : s.rbHead ≠ s.rbTail) :
    (s.redraw d).slot .rbBuf s.rbTail = s.slot .rbBuf s.rbTail := by
  obtain ⟨hh, ht, hw⟩ := h.ring
  have hcount := State.ringCount_ringAdvance hh ht hne
  have h0 : s.unreadSlot 0 = s.rbTail := Nat.mod_eq_of_lt ht
  exact State.slot_draw_of_written d (h0 ▸ hw 0 (by omega))

/-- The pending frame's slots have been written (R33). -/
theorem slots_ibBuf_redraw (hready : s.ibReady = true) :
    (s.redraw d).slots .ibBuf s.ibLen.toNat = s.slots .ibBuf s.ibLen.toNat := by
  refine State.slots_congr fun i hi => State.slot_draw_of_written d ?_
  have hst : s.inState .frameComplete := h.inbox.ready_iff.1 hready
  have hwritten : s.written .pBuf i :=
    h.parser.expected_written hst i (h.inbox.len_eq hready ▸ hi)
  unfold State.written
  rw [State.array_ibBuf, h.inbox.payload_eq hready i hi]
  exact hwritten

theorem execRbRead_redraw : execRbRead (s.redraw d) = onNext (State.redraw · d) (execRbRead s) := by
  have hin : s.ringIndicesInRange = true := h.ring.ringIndicesInRange
  refine onConsumerPort_redraw d ?_
  by_cases he : s.rbHead = s.rbTail
  · rw [ringRead_of_empty hin he, ringRead_of_empty (s := s.redraw d) hin he]
    rfl
  · rw [ringRead_of_nonempty hin he, ringRead_of_nonempty (s := s.redraw d) hin he,
      State.redraw_rbTail, slot_tail_redraw h d he]
    rfl

theorem execParseStep_redraw (b : Byte) :
    execParseStep b (s.redraw d) = onNext (State.redraw · d) (execParseStep b s) := by
  obtain ⟨ready, t, hpc⟩ := h.parser.exists_parseCase b
  refine onConsumerPort_redraw d ?_
  rw [parseByte_of_case hpc, parseByte_of_case (hpc.redraw h.parser d)]
  rfl

theorem execTakeFrame_redraw :
    execTakeFrame (s.redraw d) = onNext (State.redraw · d) (execTakeFrame s) := by
  refine onConsumerPort_redraw d ?_
  rw [State.redraw_ibReady]
  by_cases hr : s.ibReady = false
  · rw [if_pos hr, if_pos hr]
    rfl
  · rw [if_neg hr, if_neg hr, State.redraw_ibLen, slots_ibBuf_redraw h d (by simpa using hr),
      apply_ite (onNext (State.redraw · d))]
    rfl

theorem processMicro_redraw :
    processMicro (s.redraw d) = onNext (State.redraw · d) (processMicro s) := by
  have hin : s.ringIndicesInRange = true := h.ring.ringIndicesInRange
  refine inLegalBuild_redraw d ?_
  rw [apply_ite (onNext (State.redraw · d))]
  refine if_congr Iff.rfl ?_ rfl
  by_cases he : s.rbHead = s.rbTail
  · rw [ringRead_of_empty hin he, ringRead_of_empty (s := s.redraw d) hin he]
    rfl
  · have hparser : s.ringAdvance.ParserInv := h.parser.congr rfl rfl rfl rfl rfl rfl rfl rfl
    obtain ⟨ready, t, hpc⟩ := hparser.exists_parseCase (s.slot .rbBuf s.rbTail)
    rw [ringRead_of_nonempty hin he, ringRead_of_nonempty (s := s.redraw d) hin he,
      State.redraw_rbTail, slot_tail_redraw h d he]
    simp only [parseByte_of_case hpc,
      show parseByte _ (s.redraw d).ringAdvance = _ from parseByte_of_case (hpc.redraw hparser d)]
    cases ready <;> rfl

theorem exec_redraw (i : Instr) : exec i (s.redraw d) = onNext (State.redraw · d) (exec i s) := by
  cases i with
  | rbWrite b => exact inLegalBuild_redraw d (ringWrite_redraw d b)
  | rbRead => exact execRbRead_redraw h d
  | parseStep b => exact execParseStep_redraw h d b
  | takeFrame => exact execTakeFrame_redraw h d
  | rbAvailable | encode | send =>
    refine onConsumerPort_redraw d ?_
    rw [apply_ite (onNext (State.redraw · d))]
    rfl
  | process =>
    refine onConsumerPort_redraw d ?_
    rw [State.redraw_pState]
    cases ParserState.ofCode s.pState with
    | none => rfl
    | some p => cases p <;> rfl
  | checksum | init | startRx | stopRx => exact onConsumerPort_redraw d rfl

end RedrawInv

theorem sinkAnswers_redraw (s : State) (d : Nat) (ok : Bool) :
    sinkAnswers ok (s.redraw d) = onNext (State.redraw · d) (sinkAnswers ok s) := by
  refine inLegalBuild_redraw d ?_
  rw [apply_ite (onNext (State.redraw · d))]
  rfl

theorem sendComplete_redraw (s : State) (d : Nat) :
    sendComplete (s.redraw d) = onNext (State.redraw · d) (sendComplete s) := by
  refine inLegalBuild_redraw d ?_
  rw [apply_ite (onNext (State.redraw · d))]
  refine if_congr Iff.rfl ?_ rfl
  rw [State.redraw_sinkAnswer]
  cases s.sinkAnswer <;> rfl

/-- Settles O56: the slots that a step reads, the oldest unread byte's, the payload's at publication and
the pending frame's, have all been written. -/
theorem resetContentsAreNeverObserved : Obligations.ResetContentsAreNeverObserved := by
  intro a s d h
  show agentStep a (s.redraw d) = onNext (State.redraw · d) (agentStep a s)
  cases a with
  | request r =>
    cases hd : decode r with
    | ok i => simpa only [agentStep, hd] using exec_redraw h d i
    | error e => simp only [agentStep, hd, onNext]
  | processMicro => exact processMicro_redraw h d
  | sinkAnswer ok => exact sinkAnswers_redraw s d ok
  | sendComplete => exact sendComplete_redraw s d

end Sys2Proof.Machine

/-! ### Where the machine's step comes from (20_memory.md R59; 60_exceptions.md R225) -/

namespace Sys2Proof.Machine

theorem step_of_schedule_cons {s : State} {a : AgentStep} {rest : List AgentStep}
    (hs : s.schedule = a :: rest) : step s = agentStep a { s with schedule := rest } := by
  rw [step, hs]
  rfl

theorem step_of_schedule_nil {s : State} (hs : s.schedule = []) : step s = drawnStep s := by
  rw [step, hs]

theorem agentStep_request_of_decode {r : Request} {i : Instr} (hd : decode r = .ok i) (s : State) :
    agentStep (.request r) s = exec i s := by
  rw [agentStep, hd]

/-- Settles O6: the step is the scheduled agent's, and that of a decoded request is its operation. -/
theorem stepRunsTheScheduledRequest : Obligations.StepRunsTheScheduledRequest := by
  intro s r rest i hs hd
  rw [step_of_schedule_cons hs, agentStep_request_of_decode hd]

/-- Settles O9: by the three outcomes of the drawn step; in a legal build a refused one is an idle turn. -/
theorem unscheduledStepIsTheEnvironmentsDraw : Obligations.UnscheduledStepIsTheEnvironmentsDraw := by
  intro s hl hs
  rw [step_of_schedule_nil hs]
  unfold drawnStep State.nextTurn
  cases agentStep (Config.environment s.draw s.turn) { s with turn := s.turn + 1 } with
  | next t => rfl
  | fault f => rfl
  | refused r => exact inLegalBuild_of_legal hl _

end Sys2Proof.Machine

/-! ### Every step keeps the arrays canonical (20_memory.md R50, log entry 4) -/

namespace Sys2Proof.Machine

/-- The three arrays are in canonical form; they need not be in range. -/
def State.ArraysWf (s : State) : Prop := ∀ a, (s.array a).wf

/-- The parser writes one slot of `p_buf` (R158, R159), fills the Inbox (R161), or writes no array. -/
theorem ParseCase.arraysWf {b : Byte} {s t : State} {ready : Bool} (hpc : ParseCase b s ready t)
    (h : s.ArraysWf) : t.ArraysWf := by
  cases hpc with
  | r158 | r159 => exact fun
    | .rbBuf => h .rbBuf
    | .pBuf  => Memory.wf_set (h .pBuf) _ _
    | .ibBuf => h .ibBuf
  | r161 => exact fun
    | .rbBuf => h .rbBuf
    | .pBuf  => h .pBuf
    | .ibBuf => Memory.wf_fill (h .ibBuf) _ _
  | _ => exact h

/-- Beside the parser's, the one write to an array is RB_WRITE's to the ring (R102). -/
theorem ExecCase.arraysWf {s t : State} {i : Instr} (hx : ExecCase s i t) (h : s.ArraysWf) :
    t.ArraysWf := by
  cases hx with
  | rbWrite b => exact fun
    | .rbBuf => Memory.wf_set (h .rbBuf) _ _
    | .pBuf  => h .pBuf
    | .ibBuf => h .ibBuf
  | parseStep b ready u hpc => exact (hpc.arraysWf h :)
  | _ => exact h

theorem MicroCase.arraysWf {s t : State} (hm : MicroCase s t) (h : s.ArraysWf) : t.ArraysWf := by
  cases hm with
  | empty => exact h
  | frame u _ hpc | more u _ hpc => exact (hpc.arraysWf (s := s.ringAdvance) h :)

theorem agentStep_arraysWf {a : AgentStep} {s t : State} (hx : agentStep a s = .next t)
    (h : s.ArraysWf) : t.ArraysWf := by
  obtain ⟨r, i, -, -, hi⟩ | ⟨-, hm⟩ | ⟨ok, -, ha⟩ | ⟨-, hc⟩ := agentStep_cases hx
  · obtain ⟨-, -, hcase⟩ := exec_cases hi
    exact hcase.arraysWf h
  · obtain ⟨-, -, -, hcase⟩ := processMicro_cases hm
    exact hcase.arraysWf h
  · obtain ⟨-, -, -, -, rfl⟩ := sinkAnswers_cases ha
    exact h
  · obtain ⟨-, -, ok, -, rfl⟩ := sendComplete_cases hc
    exact h

/-- Settles O14: an agent's step keeps the form (`agentStep_arraysWf`), and neither the schedule nor the
turn is part of an array. -/
theorem stepKeepsTheArraysCanonical : Obligations.StepKeepsTheArraysCanonical := by
  intro s t h hstep
  obtain ⟨a, rest, -, ha⟩ | ⟨-, ha⟩ | ⟨-, -, rfl⟩ := step_cases hstep
  · exact agentStep_arraysWf ha h
  · exact agentStep_arraysWf ha h
  · exact h

end Sys2Proof.Machine

/-! ### Under the invariant no step faults (20_memory.md R50; 60_exceptions.md R215 (b)) -/

namespace Sys2Proof.Machine

theorem inLegalBuild_ne_fault {s : State} {k : Result} {f : Fault} (hk : k ≠ .fault f) :
    inLegalBuild s k ≠ .fault f := fun h => hk (inLegalBuild_fault_iff.1 h).2

theorem onConsumerPort_ne_fault {s : State} {k : Result} {f : Fault} (hk : k ≠ .fault f) :
    onConsumerPort s k ≠ .fault f := fun h => hk (onConsumerPort_fault_iff.1 h).2.2

/-- The pending frame's length is the parser's `p_expected`, which is in range in FrameComplete. -/
theorem State.Inv.ibLen_le {s : State} (h : s.Inv) (hready : s.ibReady = true) :
    s.ibLen.toNat ≤ s.cfg.maxDataLength := by
  rw [h.inbox.len_eq hready]
  exact h.parser.expected_le (.inr (.inr (h.inbox.ready_iff.1 hready)))

section NoFault

variable {s : State} (h : s.Inv) (f : Fault)
include h

theorem execRbRead_ne_fault : execRbRead s ≠ .fault f := by
  refine onConsumerPort_ne_fault ?_
  by_cases he : s.rbHead = s.rbTail
  · rw [ringRead_of_empty h.ring.ringIndicesInRange he]
    nofun
  · rw [ringRead_of_nonempty h.ring.ringIndicesInRange he]
    nofun

theorem execRbAvailable_ne_fault : execRbAvailable s ≠ .fault f := by
  refine onConsumerPort_ne_fault ?_
  rw [if_pos h.ring.ringIndicesInRange]
  nofun

theorem execParseStep_ne_fault (b : Byte) : execParseStep b s ≠ .fault f := by
  obtain ⟨ready, t, hpc⟩ := h.parser.exists_parseCase b
  refine onConsumerPort_ne_fault ?_
  rw [parseByte_of_case hpc]
  nofun

theorem execProcess_ne_fault : execProcess s ≠ .fault f := by
  obtain ⟨p, hp⟩ := Option.isSome_iff_exists.1 h.parser.state_legal
  refine onConsumerPort_ne_fault ?_
  rw [hp]
  cases p <;> nofun

theorem execTakeFrame_ne_fault : execTakeFrame s ≠ .fault f := by
  refine onConsumerPort_ne_fault ?_
  by_cases hr : s.ibReady = false
  · rw [if_pos hr]
    nofun
  · rw [if_neg hr, if_pos (h.ibLen_le (by simpa using hr))]
    nofun

/-- A micro-step reads the ring and then parses: the read changes nothing that the parser's part of the
invariant looks at. -/
theorem processMicro_ne_fault : processMicro s ≠ .fault f := by
  refine inLegalBuild_ne_fault ?_
  by_cases hc : s.cOp = .inProcess
  · rw [if_pos hc]
    by_cases he : s.rbHead = s.rbTail
    · rw [ringRead_of_empty h.ring.ringIndicesInRange he]
      nofun
    · have hparser : s.ringAdvance.ParserInv := h.parser.congr rfl rfl rfl rfl rfl rfl rfl rfl
      obtain ⟨ready, t, hpc⟩ := hparser.exists_parseCase (s.slot .rbBuf s.rbTail)
      rw [ringRead_of_nonempty h.ring.ringIndicesInRange he]
      simp only [parseByte_of_case hpc]
      cases ready <;> nofun
  · rw [if_neg hc]
    nofun

/-- Six operations look at an index, a slot or `p_state`; the other six have no fault in them. -/
theorem exec_ne_fault (i : Instr) : exec i s ≠ .fault f := by
  cases i with
  | rbWrite b =>
    rw [exec_rbWrite_of_inRange h.legal ⟨h.ring.head_lt, h.ring.tail_lt⟩]
    nofun
  | rbRead => exact execRbRead_ne_fault h f
  | rbAvailable => exact execRbAvailable_ne_fault h f
  | parseStep b => exact execParseStep_ne_fault h f b
  | process => exact execProcess_ne_fault h f
  | takeFrame => exact execTakeFrame_ne_fault h f
  | encode | send =>
    refine onConsumerPort_ne_fault ?_
    split <;> nofun
  | checksum | init | startRx | stopRx => exact onConsumerPort_ne_fault nofun

end NoFault

theorem sinkAnswers_ne_fault (ok : Bool) (s : State) (f : Fault) : sinkAnswers ok s ≠ .fault f := by
  refine inLegalBuild_ne_fault ?_
  split <;> nofun

theorem sendComplete_ne_fault (s : State) (f : Fault) : sendComplete s ≠ .fault f := by
  refine inLegalBuild_ne_fault ?_
  split
  · split <;> nofun
  · nofun

theorem agentStep_ne_fault {s : State} (h : s.Inv) (a : AgentStep) (f : Fault) :
    agentStep a s ≠ .fault f := by
  cases a with
  | request r =>
    cases hd : decode r with
    | ok i => exact agentStep_request_of_decode hd s ▸ exec_ne_fault h f i
    | error e => simp [agentStep, hd]
  | processMicro => exact processMicro_ne_fault h f
  | sinkAnswer ok => exact sinkAnswers_ne_fault ok s f
  | sendComplete => exact sendComplete_ne_fault s f

/-- A fault of the drawn step is the drawn agent's: an idle turn has none. -/
theorem agentStep_fault_of_drawnStep {s : State} {f : Fault} (hx : drawnStep s = .fault f) :
    agentStep (Config.environment s.draw s.turn) s.nextTurn = .fault f := by
  unfold drawnStep at hx
  split at hx
  · cases hx
  · next hf => exact hf.trans hx
  · exact absurd hx (inLegalBuild_ne_fault nofun)

/-- Settles O54: no agent's step faults under the invariant (`agentStep_ne_fault`), which looks at neither
the schedule nor the turn. -/
theorem noStepFaultsUnderTheInvariant : Obligations.NoStepFaultsUnderTheInvariant := by
  intro s h f hx
  cases hs : s.schedule with
  | cons a rest =>
    rw [step_of_schedule_cons hs] at hx
    exact agentStep_ne_fault (h.withScheduleTurn rest s.turn) a f hx
  | nil =>
    rw [step_of_schedule_nil hs] at hx
    exact agentStep_ne_fault (h.withScheduleTurn s.schedule (s.turn + 1)) _ f
      (agentStep_fault_of_drawnStep hx)

end Sys2Proof.Machine

/-! ### Command words: the decoder, the encoder and the opcode table (30_encoding.md R80 to R82) -/

namespace Sys2Proof

/-- The request is one for the operation `i` (R80, R81): it has `i`'s port and word, and the operands that
`i` takes beside the word. -/
structure Request.AsksFor (r : Request) (i : Instr) : Prop where
  port    : r.port = (encode i).port
  word    : r.word = (encode i).word
  bytes   : i.takesBytes = true → r.bytes = (encode i).bytes
  timeout : i.takesTimeout = true → r.timeout = (encode i).timeout

theorem encode_asksFor (i : Instr) : (encode i).AsksFor i :=
  ⟨rfl, rfl, fun _ => rfl, fun _ => rfl⟩

theorem onPort_ok_iff {p : Port} {r : Request} {i j : Instr} :
    onPort p r j = .ok i ↔ r.port = p ∧ j = i := by
  unfold onPort
  split <;> simp [*]

theorem plainOp_ok_iff {r : Request} {i j : Instr} :
    plainOp r j = .ok i ↔ (r.port = .consumer ∧ cmdImm r.word = 0) ∧ j = i := by
  unfold plainOp
  split
  · simp [*]
  · split <;> simp_all

/-- The decoder branches on the operation code as a number; that number and the immediate byte are the
whole word. -/
theorem word_eq_of_op {w : CmdWord} {op : BitVec 4} (h : (cmdOp w).toNat = op.toNat) :
    w = cmdWord op (cmdImm w) :=
  (eq_cmdWord_iff _ _ _).2 ⟨BitVec.eq_of_toNat_eq h, rfl⟩

/-- A Consumer operation with no immediate operand is asked for by its word with imm8 = 0x00. -/
theorem asksFor_of_plainOp {r : Request} {i j : Instr} (op : BitVec 4)
    (h : plainOp r j = .ok i) (hop : (cmdOp r.word).toNat = op.toNat)
    (hport : (encode j).port = .consumer) (hword : (encode j).word = cmdWord op 0)
    (hbytes : j.takesBytes = true → r.bytes = (encode j).bytes)
    (htimeout : j.takesTimeout = true → r.timeout = (encode j).timeout) : r.AsksFor i := by
  obtain ⟨⟨hp, himm⟩, rfl⟩ := plainOp_ok_iff.1 h
  refine ⟨hp.trans hport.symm, ?_, hbytes, htimeout⟩
  rw [hword, ← himm]
  exact word_eq_of_op hop

/-- One case for each arm of the decoder, in the order of the operation codes. -/
theorem asksFor_of_decode {r : Request} {i : Instr} (h : decode r = .ok i) : r.AsksFor i := by
  unfold decode at h
  split at h
  next hop =>
    obtain ⟨hp, rfl⟩ := onPort_ok_iff.1 h
    exact ⟨hp, word_eq_of_op hop, nofun, nofun⟩
  next hop => exact asksFor_of_plainOp 0x2 h hop rfl rfl nofun nofun
  next hop => exact asksFor_of_plainOp 0x3 h hop rfl rfl nofun nofun
  next hop => exact asksFor_of_plainOp 0x4 h hop rfl rfl (fun _ => rfl) nofun
  next hop => exact asksFor_of_plainOp 0x5 h hop rfl rfl (fun _ => rfl) nofun
  next hop => exact asksFor_of_plainOp 0x6 h hop rfl rfl (fun _ => rfl) (fun _ => rfl)
  next hop =>
    obtain ⟨hp, rfl⟩ := onPort_ok_iff.1 h
    exact ⟨hp, word_eq_of_op hop, nofun, nofun⟩
  next hop => exact asksFor_of_plainOp 0x8 h hop rfl rfl nofun nofun
  next hop => exact asksFor_of_plainOp 0x9 h hop rfl rfl nofun nofun
  next hop => exact asksFor_of_plainOp 0xA h hop rfl rfl nofun nofun
  next hop => exact asksFor_of_plainOp 0xB h hop rfl rfl nofun nofun
  next hop => exact asksFor_of_plainOp 0xC h hop rfl rfl nofun nofun
  next => cases h

theorem decode_of_asksFor {r : Request} {i : Instr} (h : r.AsksFor i) : decode r = .ok i := by
  obtain ⟨hp, hw, hb, ht⟩ := h
  cases i with
  | rbWrite b | parseStep b => simp [decode, onPort, encode, consumerWord, hp, hw]
  | checksum span | encode payload => simp [decode, plainOp, encode, consumerWord, hp, hw, hb rfl]
  | send payload timeout => simp [decode, plainOp, encode, consumerWord, hp, hw, hb rfl, ht rfl]
  | rbRead | rbAvailable | process | takeFrame | init | startRx | stopRx =>
    simp [decode, plainOp, encode, consumerWord, hp, hw]

/-- Settles O2: from the decoder's branches to the operation's request, and back operation by operation. -/
theorem decodeIsTheInverseOfEncode : Obligations.DecodeIsTheInverseOfEncode := by
  intro r i
  constructor
  · intro h
    obtain ⟨hp, hw, hb, ht⟩ := asksFor_of_decode h
    exact ⟨hp, hw, hb, ht⟩
  · rintro ⟨hp, hw, hb, ht⟩
    exact decode_of_asksFor ⟨hp, hw, hb, ht⟩

/-- Settles O1: an operation's own request asks for it. -/
theorem decodeOfEncodeIsTheInstruction : Obligations.DecodeOfEncodeIsTheInstruction :=
  fun i => decode_of_asksFor (encode_asksFor i)

/-- Every operation's word is a word of a row, that of its own mnemonic. -/
theorem rowsOf_encode (i : Instr) :
    Laws.OpcodeRow.rowsOf (encode i).port (encode i).word = [Laws.OpcodeRow.mnemonic i] := by
  cases i with
  | rbWrite b => exact Laws.OpcodeRow.rbWrite b
  | rbRead => exact Laws.OpcodeRow.rbRead
  | rbAvailable => exact Laws.OpcodeRow.rbAvailable
  | checksum span => exact Laws.OpcodeRow.checksum span
  | encode payload => exact Laws.OpcodeRow.encode payload
  | send payload timeout => exact Laws.OpcodeRow.send payload timeout
  | parseStep b => exact Laws.OpcodeRow.parseStep b
  | process => exact Laws.OpcodeRow.process
  | takeFrame => exact Laws.OpcodeRow.takeFrame
  | init => exact Laws.OpcodeRow.init
  | startRx => exact Laws.OpcodeRow.startRx
  | stopRx => exact Laws.OpcodeRow.stopRx

theorem wellFormed_iff_rowsOf (r : Request) :
    r.wellFormed = true ↔ Laws.OpcodeRow.rowsOf r.port r.word ≠ [] := by
  simp [Request.wellFormed, Laws.OpcodeRow.rowsOf]

theorem Request.AsksFor.wellFormed {r : Request} {i : Instr} (h : r.AsksFor i) :
    r.wellFormed = true := by
  rw [wellFormed_iff_rowsOf, h.port, h.word, rowsOf_encode]
  exact List.cons_ne_nil _ _

/-- A row whose mask is the op field alone. -/
theorem word_of_op_mask {w : CmdWord} {op : BitVec 4} (h : w &&& 0xF00#12 = cmdWord op 0) :
    w = cmdWord op (cmdImm w) := by
  have hop : cmdOp (w &&& 0xF00#12) = cmdOp w := by
    rw [cmdOp, BitVec.extractLsb'_and]
    exact BitVec.and_allOnes
  rw [h, cmdOp_cmdWord] at hop
  exact (eq_cmdWord_iff _ _ _).2 ⟨hop.symm, rfl⟩

/-- A row whose mask is the whole word. -/
theorem word_of_full_mask {w pattern : CmdWord} (h : w &&& 0xFFF#12 = pattern) : w = pattern :=
  BitVec.and_allOnes.symm.trans h

theorem exists_asksFor_of_admits {r : Request} {row : TableRow} (hrow : row ∈ opcodeTable)
    (h : row.admits r.port r.word = true) : ∃ i, r.AsksFor i := by
  obtain ⟨hp, hm⟩ : row.port = r.port ∧ r.word &&& row.mask = row.pattern := by
    simpa [TableRow.admits] using h
  simp only [opcodeTable, List.mem_cons, List.not_mem_nil, or_false] at hrow
  rcases hrow with rfl | rfl | rfl | rfl | rfl | rfl | rfl | rfl | rfl | rfl | rfl | rfl
  · exact ⟨.rbWrite (cmdImm r.word), hp.symm, word_of_op_mask hm, nofun, nofun⟩
  · exact ⟨.rbRead, hp.symm, word_of_full_mask hm, nofun, nofun⟩
  · exact ⟨.rbAvailable, hp.symm, word_of_full_mask hm, nofun, nofun⟩
  · exact ⟨.checksum r.bytes, hp.symm, word_of_full_mask hm, fun _ => rfl, nofun⟩
  · exact ⟨.encode r.bytes, hp.symm, word_of_full_mask hm, fun _ => rfl, nofun⟩
  · exact ⟨.send r.bytes r.timeout, hp.symm, word_of_full_mask hm, fun _ => rfl, fun _ => rfl⟩
  · exact ⟨.parseStep (cmdImm r.word), hp.symm, word_of_op_mask hm, nofun, nofun⟩
  · exact ⟨.process, hp.symm, word_of_full_mask hm, nofun, nofun⟩
  · exact ⟨.takeFrame, hp.symm, word_of_full_mask hm, nofun, nofun⟩
  · exact ⟨.init, hp.symm, word_of_full_mask hm, nofun, nofun⟩
  · exact ⟨.startRx, hp.symm, word_of_full_mask hm, nofun, nofun⟩
  · exact ⟨.stopRx, hp.symm, word_of_full_mask hm, nofun, nofun⟩

/-- Settles O3: a decoded request asks for an operation, whose word is in the table; a word of a row asks
for that row's operation. -/
theorem decoderAcceptsExactlyTheOpcodeTable : Obligations.DecoderAcceptsExactlyTheOpcodeTable := by
  intro r
  constructor
  · rintro ⟨i, h⟩
    exact (asksFor_of_decode h).wellFormed
  · intro h
    obtain ⟨row, hrow, hadmits⟩ := List.any_eq_true.1 h
    obtain ⟨i, hi⟩ := exists_asksFor_of_admits hrow hadmits
    exact ⟨i, decode_of_asksFor hi⟩

/-- Settles O5, by running the decoder on R86's twelve words. -/
theorem wordsOfTheSpecDecodeAsWritten : Obligations.WordsOfTheSpecDecodeAsWritten :=
  ⟨rfl, rfl, rfl, rfl, rfl, rfl, rfl, rfl, rfl, rfl, rfl, rfl⟩

/-- R82's illegal words, on the port they are issued on. -/
def Request.Illegal (r : Request) : Prop :=
  cmdOp r.word ∈ reservedOps ∨ (cmdOp r.word = 0x1 ∧ r.port = .consumer) ∨
    (cmdOp r.word ≠ 0x1 ∧ r.port = .producer) ∨ (cmdOp r.word ∉ [0x1, 0x7] ∧ cmdImm r.word ≠ 0x00)

/-- The packed fields of each operation's own word are none of R82's four kinds. -/
theorem not_illegal_encode (i : Instr) : ¬ (encode i).Illegal := by
  cases i <;> simp [Request.Illegal, encode, consumerWord, reservedOps]

theorem Request.AsksFor.not_illegal {r : Request} {i : Instr} (h : r.AsksFor i) : ¬ r.Illegal := by
  unfold Request.Illegal
  rw [h.port, h.word]
  exact not_illegal_encode i

theorem decode_error_of_illegal {r : Request} (h : r.Illegal) : ∃ e, decode r = .error e := by
  cases hd : decode r with
  | ok i => exact absurd h (asksFor_of_decode hd).not_illegal
  | error e => exact ⟨e, rfl⟩

end Sys2Proof

namespace Sys2Proof.Machine

theorem agentStep_request_of_error {r : Request} {e : DecodeError} (hd : decode r = .error e)
    (s : State) : agentStep (.request r) s = .refused (refusalOf e) := by
  rw [agentStep, hd]

/-- Settles O4: an illegal word asks for no operation, so the decoder refuses it, and then so does the step. -/
theorem illegalCommandWordsAreRefused : Obligations.IllegalCommandWordsAreRefused := by
  intro r h
  obtain ⟨e, hd⟩ := decode_error_of_illegal h
  refine ⟨e, hd, fun s rest hs => ?_⟩
  rw [step_of_schedule_cons hs, agentStep_request_of_error hd]

theorem decode_tableRequest {nbits w : Nat} {i : Instr} (h : decodeTableWord nbits w = some i) :
    decode (tableRequest w) = .ok i := by
  unfold decodeTableWord at h
  split at h
  · cases hd : decode (tableRequest w) <;> simp_all [Except.toOption]
  · cases h

/-- Settles O8: the placed word is the schedule's first request, and running it leaves the rest (O6). -/
theorem stepRunsThePlacedWord : Obligations.StepRunsThePlacedWord := by
  intro s nbits w i h
  exact stepRunsTheScheduledRequest (s.withFetchWord nbits w) (tableRequest w) s.schedule i rfl
    (decode_tableRequest h)

end Sys2Proof.Machine

/-! ### The frame on the wire, offset by offset (30_encoding.md R70, R73) -/

namespace Sys2Proof.Machine

theorem checksum_toNat (bs : List Byte) : (checksum bs).toNat = (bs.map BitVec.toNat).sum % 256 := by
  induction bs with
  | nil => rfl
  | cons b bs ih => simp [checksum_cons, BitVec.toNat_add, ih]

theorem lenByte_toNat {c : Config} {p : List Byte} (hl : c.legal = true) (hf : c.fits p = true) :
    (lenByte p).toNat = p.length := by
  have hmax : c.maxDataLength ≤ 255 := ((Config.legal_iff c).1 hl).2
  have hlen : p.length ≤ c.maxDataLength := of_decide_eq_true hf
  exact Nat.mod_eq_of_lt (by omega)

theorem encodeFrame_length (c : Config) (p : List Byte) : (encodeFrame c p).length = p.length + 4 := by
  simp [encodeFrame]

/-- The bytes after HEAD and LEN. -/
theorem encodeFrame_getElem?_two_add (c : Config) (p : List Byte) (i : Nat) :
    (encodeFrame c p)[2 + i]? = (p ++ [checksum (lenByte p :: p), c.tailByte])[i]? := by
  rw [Nat.add_comm]
  rfl

/-- Settles O25: HEAD and LEN stand first, and the payload, the checksum and TAIL follow. -/
theorem frameHasTheWireFormat : Obligations.FrameHasTheWireFormat := by
  intro c p hl hf
  have hlen : (lenByte p).toNat = p.length := lenByte_toNat hl hf
  refine ⟨encodeFrame_length c p, rfl, ⟨lenByte p, rfl, hlen⟩, fun i hi => ?payload,
    ⟨checksum (lenByte p :: p), ?checksum, ?sum⟩, ?tail⟩
  case payload => rw [encodeFrame_getElem?_two_add, List.getElem?_append_left hi]
  case checksum => rw [encodeFrame_getElem?_two_add]; simp
  case sum => rw [checksum_toNat, List.map_cons, List.sum_cons, hlen]
  case tail => rw [show 3 + p.length = 2 + (p.length + 1) by omega, encodeFrame_getElem?_two_add]; simp

end Sys2Proof.Machine

/-! ### A `p_state` that is no parser state (30_encoding.md R77; 60_exceptions.md R215; I21) -/

namespace Sys2Proof.Machine

theorem ParserState.ofCode_eq_none_iff (v : BitVec 3) :
    ParserState.ofCode v = none ↔ v = 5 ∨ v = 6 ∨ v = 7 := by
  revert v
  decide

theorem parseByte_of_no_state {s : State} (h : ParserState.ofCode s.pState = none) (b : Byte) :
    parseByte b s = .error .parserStateIllegal := by
  rw [parseByte, h]

/-- Settles O12: both operations look at the parser state first. -/
theorem illegalParserStateFaults : Obligations.IllegalParserStateFaults := by
  refine ⟨ParserState.ofCode_eq_none_iff, fun s ⟨hl, hc⟩ hp => ?_⟩
  have hnone : ParserState.ofCode s.pState = none := (ParserState.ofCode_eq_none_iff _).2 hp
  refine ⟨fun b => ?_, ?_⟩
  · show execParseStep b s = _
    rw [execParseStep, onConsumerPort_of_free hl hc, parseByte_of_no_state hnone]
  · show execProcess s = _
    rw [execProcess, onConsumerPort_of_free hl hc, hnone]

end Sys2Proof.Machine

/-! ### One operation of the ring, in full (40_ring_buffer.md R102, R106) -/

namespace Sys2Proof.Machine

/-- Settles O15: RB_WRITE's next state is `ringPut`; on a full ring its new `rb_head` is the old `rb_tail`,
and no unread byte stands in the `rb_head` slot, before the write or after it. -/
theorem rbWriteStoresAndDropsTheOldestWhenFull :
    Obligations.RbWriteStoresAndDropsTheOldestWhenFull := by
  intro b s hl hr
  refine ⟨s.ringPut b, exec_rbWrite_of_inRange hl hr b, ?frame, ?stored, fun a i ha => ?kept,
    fun k => State.unreadSlot_ne_head hr.1 hr.2, fun hfull k hk => ?dropped⟩
  case frame =>
    have htail : (s.ringPut b).rbTail = if (s.rbHead + 1) % s.cfg.rbSize = s.rbTail
        then (s.rbTail + 1) % s.cfg.rbSize else s.rbTail := by
      simp only [State.ringPut_rbTail, State.ringFull_iff, Config.ringNext]
    rw [← htail]
    rfl
  case stored => simp [State.slot_ringPut]
  case kept => rw [State.slot_ringPut, if_neg ha]
  case dropped =>
    have hhead : (s.ringPut b).rbHead = s.rbTail := hfull
    rw [← hhead]
    exact State.unreadSlot_ne_head (hr.ringPut b).1 (hr.ringPut b).2 hk

/-- Settles O16: the two outcomes of RB_READ, by whether the indices are equal. -/
theorem rbReadConsumesTheOldestByte : Obligations.RbReadConsumesTheOldestByte :=
  fun _ hf hr => ⟨exec_rbRead_of_empty hf hr, exec_rbRead_of_nonempty hf hr⟩

end Sys2Proof.Machine

/-! ### Several writes and several reads, by the unread bytes (40_ring_buffer.md R108 to R110) -/

namespace Sys2Proof

theorem Config.rbUsable_pos {c : Config} (hl : c.legal = true) : 0 < c.rbUsable :=
  Nat.sub_pos_of_lt ((Config.legal_iff c).1 hl).1

end Sys2Proof

namespace Sys2Proof.Machine

theorem execAll_cons_of_next {i : Instr} {s t : State} (h : exec i s = .next t) (rest : List Instr) :
    execAll (i :: rest) s = execAll rest t := by
  rw [execAll, h]

theorem execAll_append_of_next {is : List Instr} {s t : State} (h : execAll is s = .next t)
    (js : List Instr) : execAll (is ++ js) s = execAll js t := by
  induction is generalizing s with
  | nil =>
    cases h
    rfl
  | cons i is ih =>
    rw [execAll] at h
    split at h
    · next u hu => rw [List.cons_append, execAll_cons_of_next hu, ih h]
    · cases h
    · cases h

/-- RB_WRITE's writes for each byte of a list, in order. -/
def State.ringPutAll (s : State) (bs : List Byte) : State := bs.foldl State.ringPut s

namespace State

@[simp] theorem ringPutAll_nil (s : State) : s.ringPutAll [] = s := rfl

@[simp] theorem ringPutAll_cons (s : State) (b : Byte) (bs : List Byte) :
    s.ringPutAll (b :: bs) = (s.ringPut b).ringPutAll bs := rfl

/-- Only the ring's own fields are written. -/
theorem ringPutAll_frame (s : State) (bs : List Byte) :
    s.ringPutAll bs = { s with
      rbBuf := (s.ringPutAll bs).rbBuf
      rbHead := (s.ringPutAll bs).rbHead
      rbTail := (s.ringPutAll bs).rbTail } := by
  induction bs generalizing s with
  | nil => rfl
  | cons b bs ih => exact ih (s.ringPut b)

@[simp] theorem ringPutAll_cfg (s : State) (bs : List Byte) : (s.ringPutAll bs).cfg = s.cfg := by
  rw [ringPutAll_frame]

@[simp] theorem ringPutAll_cOp (s : State) (bs : List Byte) : (s.ringPutAll bs).cOp = s.cOp := by
  rw [ringPutAll_frame]

@[simp] theorem ringPutAll_outputs (s : State) (bs : List Byte) :
    (s.ringPutAll bs).outputs = s.outputs := by
  rw [ringPutAll_frame]

theorem consumerFree.ringPutAll {s : State} (hf : s.consumerFree) (bs : List Byte) :
    (s.ringPutAll bs).consumerFree := by
  simpa [State.consumerFree] using hf

theorem ringInRange.ringPutAll {s : State} (hr : s.ringInRange) (bs : List Byte) :
    (s.ringPutAll bs).ringInRange := by
  induction bs generalizing s with
  | nil => exact hr
  | cons b bs ih => exact ih (hr.ringPut b)

theorem unread_eq_nil_iff {s : State} (hr : s.ringInRange) : s.unread = [] ↔ s.rbHead = s.rbTail := by
  rw [← State.ringEmpty_iff, State.ringEmpty_iff_count hr.1 hr.2, ← State.unread_length,
    List.length_eq_zero_iff]

theorem unread_length_le {s : State} (hr : s.ringInRange) : s.unread.length ≤ s.cfg.rbUsable := by
  have hpos : 0 < s.cfg.rbSize := Nat.zero_lt_of_lt hr.1
  rw [State.unread_length]
  exact Nat.le_sub_one_of_lt (State.ringCount_lt hpos)

end State

theorem rtake_of_length_le {l : List Byte} {n : Nat} (h : l.length ≤ n) : l.rtake n = l := by
  rw [List.rtake, Nat.sub_eq_zero_of_le h, List.drop_zero]

/-- Appending to the newest `n` entries of a list keeps the same newest `n` as appending to all of it. -/
theorem rtake_rtake_append (l bs : List Byte) (n : Nat) :
    (l.rtake n ++ bs).rtake n = (l ++ bs).rtake n := by
  simp [List.rtake_eq_reverse_take_reverse, List.take_append, List.take_take]

/-- A write keeps the newest RB_USABLE of the bytes unread and the new one (R102). -/
theorem unread_ringPut_eq_rtake {s : State} (hl : s.cfg.legal = true) (hr : s.ringInRange) (b : Byte) :
    (s.ringPut b).unread = (s.unread ++ [b]).rtake s.cfg.rbUsable := by
  have h2 : 2 ≤ s.cfg.rbSize := ((Config.legal_iff _).1 hl).1
  have hpos := Config.rbUsable_pos hl
  have hle := State.unread_length_le hr
  have hlen : (s.unread ++ [b]).length = s.unread.length + 1 := List.length_append
  rw [State.unread_ringPut h2 hr.1 hr.2]
  by_cases hfull : s.unread.length = s.cfg.rbUsable
  · rw [if_pos ((State.ringFull_iff_unread_length hr).2 hfull), List.rtake, hlen, hfull,
      Nat.add_sub_cancel_left, List.drop_append_of_le_length (by omega), List.drop_one]
  · rw [if_neg (mt (State.ringFull_iff_unread_length hr).1 hfull), rtake_of_length_le (by omega)]

/-- Writes keep the newest RB_USABLE of the bytes unread and the new ones (R110, from any ring). -/
theorem unread_ringPutAll {s : State} (hl : s.cfg.legal = true) (hr : s.ringInRange) (bs : List Byte) :
    (s.ringPutAll bs).unread = (s.unread ++ bs).rtake s.cfg.rbUsable := by
  induction bs generalizing s with
  | nil =>
    rw [State.ringPutAll_nil, List.append_nil, rtake_of_length_le (State.unread_length_le hr)]
  | cons b bs ih =>
    calc ((s.ringPut b).ringPutAll bs).unread
        = ((s.ringPut b).unread ++ bs).rtake s.cfg.rbUsable := ih hl (hr.ringPut b)
      _ = (s.unread ++ b :: bs).rtake s.cfg.rbUsable := by
        rw [unread_ringPut_eq_rtake hl hr, rtake_rtake_append, List.append_assoc, List.singleton_append]

/-- Writes into an empty ring leave the newest RB_USABLE of their bytes unread (R110). -/
theorem unread_ringPutAll_of_empty {s : State} (hl : s.cfg.legal = true) (hr : s.ringInRange)
    (he : s.rbHead = s.rbTail) (bs : List Byte) :
    (s.ringPutAll bs).unread = bs.rtake s.cfg.rbUsable := by
  rw [unread_ringPutAll hl hr, (State.unread_eq_nil_iff hr).2 he, List.nil_append]

/-- Bytes that fit an empty ring are all unread once written (R109). -/
theorem unread_ringPutAll_of_fits {s : State} (hl : s.cfg.legal = true) (hr : s.ringInRange)
    (he : s.rbHead = s.rbTail) {bs : List Byte} (hfit : bs.length ≤ s.cfg.rbUsable) :
    (s.ringPutAll bs).unread = bs := by
  rw [unread_ringPutAll_of_empty hl hr he, rtake_of_length_le hfit]

theorem execAll_rbWrites {s : State} (hl : s.cfg.legal = true) (hr : s.ringInRange) (bs : List Byte) :
    execAll (bs.map .rbWrite) s = .next (s.ringPutAll bs) := by
  induction bs generalizing s with
  | nil => rfl
  | cons b bs ih =>
    rw [List.map_cons, execAll_cons_of_next (exec_rbWrite_of_inRange hl hr b)]
    exact ih hl (hr.ringPut b)

/-- Settles O19: the newest bytes of `unread_ringPutAll`, from a ring with none unread. -/
theorem overflowKeepsTheNewestBytes : Obligations.OverflowKeepsTheNewestBytes := by
  intro s bs hl hr he
  have hunread : (s.ringPutAll bs).unread = bs.drop (bs.length - s.cfg.rbUsable) :=
    unread_ringPutAll_of_empty hl hr he bs
  refine ⟨s.ringPutAll bs, execAll_rbWrites hl hr bs, hunread, ?_⟩
  rw [← State.unread_length, hunread, List.length_drop]
  omega

/-! ### Reading the unread bytes -/

section UnreadBytes

variable {s : State} (hf : s.consumerFree) (hr : s.ringInRange)
include hf hr

theorem exec_rbAvailable_of_unread :
    exec .rbAvailable s = .next (s.emit (.rbAvailable (!s.unread.isEmpty))) := by
  rw [exec_rbAvailable_of_inRange hf hr, State.ringEmpty_eq_unread_isEmpty hr]

/-- With a byte unread RB_READ answers the oldest one, and the others stay unread (R106). -/
theorem exec_rbRead_of_unread_cons {b : Byte} {bs : List Byte} (hu : s.unread = b :: bs) :
    exec .rbRead s = .next (s.ringAdvance.emit (.rbRead true b)) ∧ s.ringAdvance.unread = bs := by
  have hne : s.rbHead ≠ s.rbTail := fun he => by
    rw [(State.unread_eq_nil_iff hr).2 he] at hu
    cases hu
  rw [State.unread_ringAdvance hr.1 hr.2 hne] at hu
  obtain ⟨rfl, rfl⟩ := List.cons.inj hu
  exact ⟨exec_rbRead_of_nonempty hf hr hne, rfl⟩

/-- As many reads as bytes are unread answer all of them, oldest first, and empty the ring. -/
theorem execAll_rbReads {bs : List Byte} (hu : s.unread = bs) :
    ∃ t, execAll (List.replicate bs.length .rbRead) s = .next t ∧
      t.outputs = s.outputs ++ bs.map (.rbRead true) ∧ t.rbHead = t.rbTail := by
  induction bs generalizing s with
  | nil => exact ⟨s, rfl, (List.append_nil _).symm, (State.unread_eq_nil_iff hr).1 hu⟩
  | cons b bs ih =>
    obtain ⟨hread, hrest⟩ := exec_rbRead_of_unread_cons hf hr hu
    obtain ⟨t, hrun, hout, hend⟩ :=
      ih (s := s.ringAdvance.emit (.rbRead true b)) hf hr.ringAdvance hrest
    refine ⟨t, ?_, ?_, hend⟩
    · rw [List.length_cons, List.replicate_succ, execAll_cons_of_next hread, hrun]
    · simp [hout]

theorem read_available_of_unread_singleton {b : Byte} (hu : s.unread = [b]) :
    execAll [.rbRead, .rbAvailable] s =
      .next ((s.ringAdvance.emit (.rbRead true b)).emit (.rbAvailable false)) := by
  obtain ⟨hread, hrest⟩ := exec_rbRead_of_unread_cons hf hr hu
  have hanswer := exec_rbAvailable_of_unread (s := s.ringAdvance.emit (.rbRead true b)) hf hr.ringAdvance
  rw [State.unread_emit, hrest] at hanswer
  rw [execAll_cons_of_next hread, execAll_cons_of_next hanswer]
  rfl

end UnreadBytes

/-- Settles O20: without an overflow the writes leave all their bytes unread (`unread_ringPutAll_of_fits`),
and the reads answer the unread bytes (`execAll_rbReads`). -/
theorem bytesAreReadBackInWriteOrder : Obligations.BytesAreReadBackInWriteOrder := by
  intro s bs hf hr he hfit
  obtain ⟨t, hrun, hout, hend⟩ := execAll_rbReads (hf.ringPutAll bs) (hr.ringPutAll bs)
    (unread_ringPutAll_of_fits hf.1 hr he hfit)
  refine ⟨t, ?_, ?_, hend⟩
  · rw [execAll_append_of_next (execAll_rbWrites hf.1 hr bs), hrun]
  · rw [hout, State.ringPutAll_outputs]

/-! ### RB_AVAILABLE (40_ring_buffer.md R108) -/

theorem State.consumerFree_resetWith {c : Config} (hl : c.legal = true) (d : Nat) :
    (State.resetWith c d).consumerFree := ⟨hl, rfl⟩

theorem State.ringInRange_resetWith {c : Config} (hl : c.legal = true) (d : Nat) :
    (State.resetWith c d).ringInRange :=
  have hring : (State.resetWith c d).RingInv := (resetMeetsTheInvariant.1 c d hl).ring
  ⟨hring.head_lt, hring.tail_lt⟩

/-- After one write or more a byte is unread, whatever the ring held before. -/
theorem unread_ringPutAll_ne_nil {s : State} (hl : s.cfg.legal = true) (hr : s.ringInRange)
    {bs : List Byte} (hbs : bs ≠ []) : (s.ringPutAll bs).unread ≠ [] := by
  have hpos := Config.rbUsable_pos hl
  have hlen := List.length_pos_iff.2 hbs
  rw [unread_ringPutAll hl hr, ← List.length_pos_iff, List.rtake, List.length_drop, List.length_append]
  omega

theorem rbAvailable_after_writes {s : State} (hf : s.consumerFree) (hr : s.ringInRange)
    {bs : List Byte} (hbs : bs ≠ []) :
    execAll (bs.map .rbWrite ++ [.rbAvailable]) s =
      .next ((s.ringPutAll bs).emit (.rbAvailable true)) := by
  rw [execAll_append_of_next (execAll_rbWrites hf.1 hr bs),
    execAll_cons_of_next (exec_rbAvailable_of_unread (hf.ringPutAll bs) (hr.ringPutAll bs)),
    List.isEmpty_eq_false_iff.2 (unread_ringPutAll_ne_nil hf.1 hr hbs)]
  rfl

/-- R108's example, from any empty ring. -/
theorem write_available_read_available {s : State} (hf : s.consumerFree) (hr : s.ringInRange)
    (he : s.rbHead = s.rbTail) (b : Byte) :
    ∃ t, execAll [.rbWrite b, .rbAvailable, .rbRead, .rbAvailable] s = .next t ∧
      t.outputs = s.outputs ++ [.rbAvailable true, .rbRead true b, .rbAvailable false] := by
  have hfit : [b].length ≤ s.cfg.rbUsable := Config.rbUsable_pos hf.1
  have hwrite : execAll [.rbWrite b, .rbAvailable] s =
      .next ((s.ringPutAll [b]).emit (.rbAvailable true)) :=
    rbAvailable_after_writes hf hr (List.cons_ne_nil b [])
  have hread := read_available_of_unread_singleton (s := (s.ringPutAll [b]).emit (.rbAvailable true))
    (hf.ringPutAll [b]) (hr.ringPutAll [b]) (unread_ringPutAll_of_fits hf.1 hr he hfit)
  exact ⟨_, (execAll_append_of_next hwrite [.rbRead, .rbAvailable]).trans hread, by simp⟩

/-- Settles O17: 0x300 asks for RB_AVAILABLE, which answers whether a byte is unread; none is at reset, and
one is after any write (`rbAvailable_after_writes`). -/
theorem rbAvailableReportsNonEmptiness : Obligations.RbAvailableReportsNonEmptiness := by
  refine ⟨decode_of_asksFor ⟨rfl, rfl, nofun, nofun⟩, fun s hf hr => ?answer, fun c d hl => ?reset,
    fun s bs hf hr hbs => ?written, fun c d hl => ?ex⟩
  case answer =>
    have hanswer : (!s.ringEmpty) = decide (s.rbHead ≠ s.rbTail) := by simp [State.ringEmpty]
    rw [← hanswer]
    exact exec_rbAvailable_of_inRange hf hr
  case reset =>
    exact exec_rbAvailable_of_inRange (State.consumerFree_resetWith hl d) (State.ringInRange_resetWith hl d)
  case written => exact ⟨_, rbAvailable_after_writes hf hr hbs, by simp⟩
  case ex =>
    exact write_available_read_available (State.consumerFree_resetWith hl d)
      (State.ringInRange_resetWith hl d) rfl 0x55

end Sys2Proof.Machine

/-! ### The checksum of a span (41_checksum.md R121, R122, R124) -/

namespace Sys2Proof.Machine

theorem checksum_eq_ofNat_sum (bs : List Byte) :
    checksum bs = BitVec.ofNat 8 (bs.map BitVec.toNat).sum := by
  apply BitVec.eq_of_toNat_eq
  rw [checksum_toNat, BitVec.toNat_ofNat]

/-- Settles O21: a free Consumer port gives the answer, which is the sum modulo 256. -/
theorem checksumIsTheSumModulo256 : Obligations.ChecksumIsTheSumModulo256 := by
  intro span s ⟨hl, hc⟩
  have hexec : exec (.checksum span) s = .next (s.emit (.checksum (checksum span))) :=
    onConsumerPort_of_free hl hc _
  rw [hexec, checksum_eq_ofNat_sum]
  rfl

theorem checksum_append (a b : List Byte) : checksum (a ++ b) = checksum a + checksum b := by
  induction a with
  | nil => simp
  | cons x a ih => rw [List.cons_append, checksum_cons, checksum_cons, ih, BitVec.add_assoc]

/-- The sum over the natural numbers does not depend on the order. -/
theorem checksum_eq_of_perm {a b : List Byte} (h : a.Perm b) : checksum a = checksum b := by
  rw [checksum_eq_ofNat_sum, checksum_eq_ofNat_sum, (h.map BitVec.toNat).sum_eq]

/-- Settles O22: the additive law, the empty span, and the order by way of the natural sum (R121). -/
theorem checksumIsAdditiveAndOrderFree : Obligations.ChecksumIsAdditiveAndOrderFree :=
  ⟨fun a b => (checksum_append a b).symm, checksum_nil, fun _ _ => checksum_eq_of_perm⟩

/-- In a fixed context the checksum is an injective function of one byte. -/
theorem checksum_replace_byte_inj {a b : List Byte} {x y : Byte} :
    checksum (a ++ x :: b) = checksum (a ++ y :: b) ↔ x = y := by
  rw [checksum_append, checksum_append, checksum_cons, checksum_cons, BitVec.add_right_inj,
    BitVec.add_left_inj]

/-- Settles O23: equal checksums would make the two bytes equal. -/
theorem checksumDetectsOneChangedByte : Obligations.ChecksumDetectsOneChangedByte :=
  fun _ _ _ _ hxy hsum => hxy (checksum_replace_byte_inj.1 hsum)

end Sys2Proof.Machine

/-! ### The bytes of a frame, as the parser hears them (42_encoder.md R140; 43_parser.md R169) -/

namespace Sys2Proof

theorem Config.fits_iff (c : Config) (p : List Byte) : c.fits p = true ↔ p.length ≤ c.maxDataLength :=
  decide_eq_true_iff

theorem Config.not_fits_of_lt {c : Config} {p : List Byte} (h : c.maxDataLength < p.length) :
    ¬ c.fits p = true :=
  mt (c.fits_iff p).1 (Nat.not_le_of_lt h)

end Sys2Proof

namespace Sys2Proof.Machine

/-- The bytes of a frame after its payload (R70). -/
def frameEnd (c : Config) (p : List Byte) : List Byte := [checksum (lenByte p :: p), c.tailByte]

/-- The parser is in the frame of `p`, after its LEN byte and the payload bytes `pre`. -/
structure State.HasReceived (s : State) (p pre : List Byte) : Prop where
  inState : s.inState (if pre = [] then .lengthReceived else .dataReceiving)
  csOk : s.pCsOk = false
  expected : s.pExpected = lenByte p
  received : s.pReceived.toNat = pre.length
  payload : s.payloadSoFar = pre
  sum : s.pSum = checksum (lenByte p :: pre)

/-- The parser is in the frame of `p` and has accepted its checksum byte. -/
structure State.AwaitsTail (s : State) (p : List Byte) : Prop where
  inState : s.inState .dataReceiving
  csOk : s.pCsOk = true
  expected : s.pExpected = lenByte p
  payload : s.slots .pBuf p.length = p

/-- The bytes given are what the frame of `p` still has to come after the bytes the parser heard: one
constructor for the kind of the next byte. -/
inductive State.Awaits (s : State) (p : List Byte) : List Byte → Prop
  | head : s.inState .idle → Awaits s p (s.cfg.headByte :: lenByte p :: (p ++ frameEnd s.cfg p))
  | length : s.inState .headFound → s.pCsOk = false → s.pReceived = 0 →
      Awaits s p (lenByte p :: (p ++ frameEnd s.cfg p))
  | payload (pre post : List Byte) (b : Byte) : p = pre ++ b :: post → s.HasReceived p pre →
      Awaits s p (b :: (post ++ frameEnd s.cfg p))
  | checksum : s.HasReceived p p → Awaits s p [Machine.checksum (lenByte p :: p), s.cfg.tailByte]
  | tail : s.AwaitsTail p → Awaits s p [s.cfg.tailByte]

theorem State.awaits_encodeFrame {s : State} (p : List Byte) (hs : s.inState .idle) :
    s.Awaits p (encodeFrame s.cfg p) := .head hs

theorem State.HasReceived.awaits {s : State} {p pre post : List Byte} (h : s.HasReceived p pre)
    (hp : p = pre ++ post) : s.Awaits p (post ++ frameEnd s.cfg p) := by
  cases post with
  | nil =>
    obtain rfl : p = pre := hp.trans (List.append_nil pre)
    exact .checksum h
  | cons b post => exact .payload pre post b hp h

/-- An output is none of the parser's fields. -/
theorem State.Awaits.emit {s : State} {p bs : List Byte} (h : s.Awaits p bs) (o : Output) :
    (s.emit o).Awaits p bs := by
  cases h with
  | head hs => exact .head (s := s.emit o) hs
  | length hs hc hr => exact .length (s := s.emit o) hs hc hr
  | payload pre post b hp h => exact .payload (s := s.emit o) pre post b hp { h with }
  | checksum h => exact .checksum (s := s.emit o) { h with }
  | tail h => exact .tail (s := s.emit o) { h with }

/-- The checksum byte after the payload, in LengthReceived when that is empty (R156) and in DataReceiving
when it is not (R160). -/
theorem exists_parseCase_checksum {s : State} {p : List Byte} (h : s.HasReceived p p) :
    ∃ u, ParseCase (checksum (lenByte p :: p)) s false u ∧ u.AwaitsTail p := by
  have hpay : s.slots .pBuf p.length = p := by
    rw [← h.received]
    exact h.payload
  have hs := h.inState
  by_cases hp : p = []
  · subst hp
    exact ⟨_, .r156 hs h.expected (by rw [h.expected]), rfl, rfl, h.expected, hpay⟩
  · rw [if_neg hp] at hs
    have hall : ¬ s.pReceived < s.pExpected := by
      have hle : (lenByte p).toNat ≤ p.length := Nat.mod_le _ _
      rw [BitVec.lt_def, h.received, h.expected]
      omega
    exact ⟨_, .r160 hs h.csOk hall h.sum.symm, hs, rfl, h.expected, hpay⟩

section FrameOfPayload

variable {s : State} {p : List Byte} (hl : s.cfg.legal = true) (hfit : s.cfg.fits p = true)
include hl hfit

/-- LEN after HEAD (R154). -/
theorem exists_parseCase_lenByte (hs : s.inState .headFound) (hc : s.pCsOk = false)
    (hr : s.pReceived = 0) : ∃ u, ParseCase (lenByte p) s false u ∧ u.HasReceived p [] := by
  have hlen : (lenByte p).toNat ≤ s.cfg.maxDataLength :=
    (lenByte_toNat hl hfit).trans_le ((s.cfg.fits_iff p).1 hfit)
  refine ⟨_, .r154 hs hlen, rfl, hc, rfl, ?received, ?payload, ?sum⟩
  case received => simp [hr]
  case payload => simp [State.payloadSoFar, State.slots, hr]
  case sum => exact (checksum_singleton _).symm

/-- A payload byte is stored, as the first (R158) or a later one (R159). -/
theorem exists_parseCase_payload {pre post : List Byte} {b : Byte} (hp : p = pre ++ b :: post)
    (h : s.HasReceived p pre) : ∃ u, ParseCase b s false u ∧ u.HasReceived p (pre ++ [b]) := by
  have hlen : s.pExpected.toNat = p.length := by rw [h.expected, lenByte_toNat hl hfit]
  have hmax : p.length ≤ s.cfg.maxDataLength := (s.cfg.fits_iff p).1 hfit
  have hroom : s.pReceived.toNat < s.pExpected.toNat := by
    simp [h.received, hlen, hp]
  have hcase : ParseCase b s false (s.storeNext b) := by
    have hs := h.inState
    by_cases hpre : pre = []
    · rw [if_pos hpre] at hs
      have h0 : s.pReceived = 0 := BitVec.eq_of_toNat_eq (by simp [h.received, hpre])
      have hne : s.pExpected ≠ 0 := by bv_omega
      simpa [State.storeNext, h0] using ParseCase.r158 (b := b) hs hne (by omega)
    · rw [if_neg hpre] at hs
      exact .r159 hs h.csOk hroom (by omega)
  refine ⟨_, hcase, ?inState, h.csOk, h.expected, ?received, ?payload, ?sum⟩
  case inState =>
    rw [if_neg (by simp)]
    rfl
  case received =>
    have hnext : (s.pReceived + 1).toNat = s.pReceived.toNat + 1 := by bv_omega
    rw [List.length_append, ← h.received]
    exact hnext
  case payload => rw [State.payloadSoFar_storeNext b hroom, h.payload]
  case sum =>
    rw [← List.cons_append, checksum_concat, ← h.sum]
    rfl

/-- The TAIL byte publishes the payload (R161). -/
theorem parseCase_tail (h : s.AwaitsTail p) :
    ParseCase s.cfg.tailByte s true s.published ∧ s.published.slots .ibBuf p.length = p := by
  have hlen : s.pExpected.toNat = p.length := by rw [h.expected, lenByte_toNat hl hfit]
  refine ⟨.r161 h.inState h.csOk rfl (hlen.trans_le ((s.cfg.fits_iff p).1 hfit)), ?_⟩
  have hcopied : ∀ i, i < p.length → s.published.slot .ibBuf i = s.slot .pBuf i := fun i hi =>
    State.slot_of_lookup (by simp [State.published, Memory.lookup_fill, hlen, hi])
  calc s.published.slots .ibBuf p.length
      = s.slots .pBuf p.length := List.map_congr_left fun i hi => hcopied i (List.mem_range.1 hi)
    _ = p := h.payload

/-- A byte of the frame before the last one takes the parser on, with no answer. -/
theorem State.Awaits.exists_parseCase {b : Byte} {rest : List Byte} (h : s.Awaits p (b :: rest))
    (hrest : rest ≠ []) : ∃ u, ParseCase b s false u ∧ u.Awaits p rest := by
  suffices ∃ u, ParseCase b s false u ∧ (u.cfg = s.cfg → u.Awaits p rest) from
    this.imp fun u ⟨hcase, hu⟩ => ⟨hcase, hu hcase.frame.1⟩
  cases h with
  | head hs => exact ⟨_, .r152 hs rfl, fun _ => .length rfl rfl rfl⟩
  | length hs hc hr =>
    obtain ⟨u, hcase, hu⟩ := exists_parseCase_lenByte hl hfit hs hc hr
    exact ⟨u, hcase, fun hcfg => hcfg ▸ hu.awaits rfl⟩
  | payload pre post b hp h =>
    obtain ⟨u, hcase, hu⟩ := exists_parseCase_payload hl hfit hp h
    exact ⟨u, hcase, fun hcfg => hcfg ▸ hu.awaits (by simp [hp])⟩
  | checksum h =>
    obtain ⟨u, hcase, hu⟩ := exists_parseCase_checksum h
    exact ⟨u, hcase, fun hcfg => hcfg ▸ .tail hu⟩
  | tail => exact absurd rfl hrest

end FrameOfPayload

/-- PARSE_STEP of the next bytes of a frame, the last one not among them: no byte is answered. -/
theorem execAll_parseSteps_of_awaits {s : State} {p bs rest : List Byte} (hf : s.consumerFree)
    (hfit : s.cfg.fits p = true) (h : s.Awaits p (bs ++ rest)) (hrest : rest ≠ []) :
    ∃ t, execAll (bs.map .parseStep) s = .next t ∧ t.Awaits p rest ∧
      t.outputs = s.outputs ++ List.replicate bs.length (.parseStep false) ∧
      t.cfg = s.cfg ∧ t.consumerFree := by
  induction bs generalizing s with
  | nil => exact ⟨s, rfl, h, (List.append_nil _).symm, rfl, hf⟩
  | cons b bs ih =>
    obtain ⟨u, hcase, hu⟩ := h.exists_parseCase hf.1 hfit (by simp [hrest])
    obtain ⟨hcfg, -, -, -, hop, -, -, hout, -⟩ := hcase.frame
    obtain ⟨t, hrun, ht, htout, htcfg, htfree⟩ := ih (s := u.emit (.parseStep false))
      ⟨by simpa [hcfg] using hf.1, by simpa [hop] using hf.2⟩ (by simpa [hcfg] using hfit) (hu.emit _)
    refine ⟨t, ?_, ht, ?_, htcfg.trans hcfg, htfree⟩
    · rw [List.map_cons, execAll_cons_of_next (exec_parseStep_of_case hf hcase), hrun]
    · simp [htout, hout, List.replicate_succ]

/-- Where one byte of the frame is still to come, it is TAIL. -/
theorem State.Awaits.awaitsTail {s : State} {p : List Byte} {b : Byte} (h : s.Awaits p [b]) :
    b = s.cfg.tailByte ∧ s.AwaitsTail p := by
  generalize hbs : [b] = bs at h
  cases h with
  | tail h => exact ⟨List.singleton_inj.1 hbs, h⟩
  | head | length | payload | checksum => simp [frameEnd] at hbs

theorem encodeFrame_eq_append_tail (c : Config) (p : List Byte) :
    encodeFrame c p =
      ([c.headByte, lenByte p] ++ p ++ [checksum (lenByte p :: p)]) ++ [c.tailByte] := by
  simp [encodeFrame]

/-- Settles O40: the bytes before TAIL are answered by nothing (`execAll_parseSteps_of_awaits`), and TAIL
publishes the payload (`parseCase_tail`). -/
theorem encodedFrameParsesBackToItsPayload : Obligations.EncodedFrameParsesBackToItsPayload := by
  intro s p hf hs hmax
  have hfit : s.cfg.fits p = true := (s.cfg.fits_iff p).2 hmax
  have hstart := State.awaits_encodeFrame p hs
  rw [encodeFrame_eq_append_tail] at hstart ⊢
  obtain ⟨t, hrun, ht, hout, hcfg, hfree⟩ := execAll_parseSteps_of_awaits hf hfit hstart (by simp)
  rw [← hcfg] at hfit
  obtain ⟨htail, hawaits⟩ := ht.awaitsTail
  obtain ⟨hcase, hpayload⟩ := parseCase_tail hfree.1 hfit hawaits
  have hlast : exec (.parseStep s.cfg.tailByte) t = .next (t.published.emit (.parseStep true)) := by
    rw [htail]
    exact exec_parseStep_of_case hfree hcase
  refine ⟨t.published.emit (.parseStep true), ?run, ?outputs, rfl, rfl, ?length, hpayload⟩
  case run =>
    rw [List.map_append, execAll_append_of_next hrun, List.map_singleton, execAll_cons_of_next hlast]
    rfl
  case outputs =>
    show t.outputs ++ [_] = _
    rw [hout]
    simp
  case length =>
    show t.pExpected.toNat = p.length
    rw [hawaits.expected, lenByte_toNat hfree.1 hfit]

/-! ### ENCODE and the two steps of SEND (42_encoder.md R131, R132, R136) -/

section EncoderOnAFreePort

variable {s : State} (hf : s.consumerFree)
include hf

theorem exec_encode_of_fits {p : List Byte} (hfit : s.cfg.fits p = true) :
    exec (.encode p) s = .next (s.emit (.encode .ok (some (encodeFrame s.cfg p)))) :=
  (onConsumerPort_of_free hf.1 hf.2 _).trans (if_pos hfit)

theorem exec_encode_of_not_fits {p : List Byte} (hfit : ¬ s.cfg.fits p = true) :
    exec (.encode p) s = .next (s.emit (.encode .payloadTooLarge none)) :=
  (onConsumerPort_of_free hf.1 hf.2 _).trans (if_neg hfit)

theorem exec_send_of_fits {p : List Byte} (hfit : s.cfg.fits p = true) (tm : Timeout) :
    exec (.send p tm) s = .next
      (State.emit { s with cSend := some (encodeFrame s.cfg p, tm), cOp := .inSend }
        (.handToSink (encodeFrame s.cfg p) tm)) :=
  (onConsumerPort_of_free hf.1 hf.2 _).trans (if_pos hfit)

theorem exec_send_of_not_fits {p : List Byte} (hfit : ¬ s.cfg.fits p = true) (tm : Timeout) :
    exec (.send p tm) s = .next (s.emit (.send .payloadTooLarge)) :=
  (onConsumerPort_of_free hf.1 hf.2 _).trans (if_neg hfit)

end EncoderOnAFreePort

/-- Settles O24: the two outcomes of ENCODE, by the length check. -/
theorem encodeAnswersTheFrameOrTooLarge : Obligations.EncodeAnswersTheFrameOrTooLarge :=
  fun p s hf => ⟨fun h => exec_encode_of_fits hf ((s.cfg.fits_iff p).2 h),
    fun h => exec_encode_of_not_fits hf (Config.not_fits_of_lt h)⟩

theorem sendComplete_of_answered {s : State} (hl : s.cfg.legal = true) (hc : s.cOp = .inSend) {ok : Bool}
    (hok : s.sinkAnswer = some ok) :
    sendComplete s = .next
      (State.emit { s with cSend := none, cOp := .none, sinkAnswer := none } (.send (sendStatus ok))) := by
  rw [sendComplete, inLegalBuild_of_legal hl, if_pos hc, hok]
  rfl

/-- Settles O26: SEND's two outcomes, by the length check, and its second step. -/
theorem sendHandsOverThenCompletes : Obligations.SendHandsOverThenCompletes :=
  fun s hl =>
    ⟨fun p tm hc h => exec_send_of_fits ⟨hl, hc⟩ ((s.cfg.fits_iff p).2 h) tm,
      fun _ tm hc h => exec_send_of_not_fits ⟨hl, hc⟩ (Config.not_fits_of_lt h) tm,
      fun _ hc hok => sendComplete_of_answered hl hc hok⟩

end Sys2Proof.Machine

/-! ### What a transition of the parser leaves unchanged (43_parser.md R169) -/

namespace Sys2Proof.Machine

theorem ParseCase.cfg {b : Byte} {s t : State} {ready : Bool} (hpc : ParseCase b s ready t) :
    t.cfg = s.cfg := hpc.frame.1

theorem ParseCase.cOp {b : Byte} {s t : State} {ready : Bool} (hpc : ParseCase b s ready t) :
    t.cOp = s.cOp := by
  obtain ⟨-, -, -, -, hop, -⟩ := hpc.frame
  exact hop

theorem ParseCase.outputs {b : Byte} {s t : State} {ready : Bool} (hpc : ParseCase b s ready t) :
    t.outputs = s.outputs := by
  obtain ⟨-, -, -, -, -, -, -, hout, -⟩ := hpc.frame
  exact hout

theorem ParseCase.ringInRange {b : Byte} {s t : State} {ready : Bool} (hpc : ParseCase b s ready t)
    (hr : s.ringInRange) : t.ringInRange := by
  obtain ⟨hcfg, -, hhead, htail, -⟩ := hpc.frame
  simpa [State.ringInRange, hcfg, hhead, htail] using hr

theorem ParseCase.ringCount {b : Byte} {s t : State} {ready : Bool} (hpc : ParseCase b s ready t) :
    t.ringCount = s.ringCount := by
  obtain ⟨hcfg, -, hhead, htail, -⟩ := hpc.frame
  simp [State.ringCount, hcfg, hhead, htail]

/-- The parser reads the byte it is given and leaves the ring alone (R173). -/
theorem ParseCase.unread {b : Byte} {s t : State} {ready : Bool} (hpc : ParseCase b s ready t) :
    t.unread = s.unread := by
  obtain ⟨hcfg, hbuf, -, htail, -, -, -, -, -, hdraw, -⟩ := hpc.frame
  simp [State.unread, hpc.ringCount, State.unreadSlot, State.slot, hcfg, hbuf, htail, hdraw]

end Sys2Proof.Machine

/-! ### PARSE_STEP in each parser state (43_parser.md R152 to R165) -/

namespace Sys2Proof.Machine

/-- A payload byte stored in slot `n` of `p_buf`, counted and summed (R158 with `n = 0`, R159 with
`n = p_received`). -/
def State.storeAt (s : State) (n b : Byte) : State :=
  { s with
    pBuf := s.pBuf.set n.toNat b, pReceived := n + 1, pSum := s.pSum + b
    pState := ParserState.dataReceiving.code }

theorem State.slot_storeAt (s : State) (n b : Byte) (a : ArrayId) (i : Nat) :
    (s.storeAt n b).slot a i = if a = .pBuf ∧ i = n.toNat then b else s.slot a i := by
  cases a with
  | pBuf => by_cases hi : i = n.toNat <;> simp [State.slot, State.storeAt, Memory.lookup_set, hi]
  | rbBuf | ibBuf => simp [State.slot, State.storeAt]

/-- A stored byte stands in its slot, and no other slot of any array changes. -/
theorem State.slots_of_storeAt (s : State) (n b : Byte) :
    (s.storeAt n b).slot .pBuf n.toNat = b ∧
      ∀ a i, ¬ (a = .pBuf ∧ i = n.toNat) → (s.storeAt n b).slot a i = s.slot a i :=
  ⟨by simp [State.slot_storeAt], fun a i ha => by rw [State.slot_storeAt, if_neg ha]⟩

/-- Publication copies the payload's slots to the Inbox and changes no other slot (R161). -/
theorem State.slot_published (s : State) (a : ArrayId) (i : Nat) :
    s.published.slot a i =
      if a = .ibBuf ∧ i < s.pExpected.toNat then s.slot .pBuf i else s.slot a i := by
  cases a with
  | ibBuf =>
    by_cases hi : i < s.pExpected.toNat <;> simp [State.slot, State.published, Memory.lookup_fill, hi]
  | rbBuf | pBuf => simp [State.slot, State.published]

/-- Settles O28: R152 and R153. -/
theorem parseStepHuntsForHeadInIdle : Obligations.ParseStepHuntsForHeadInIdle :=
  fun _ _ hf hs =>
    ⟨fun hb => exec_parseStep_of_case hf (.r152 hs hb), fun hb => exec_parseStep_of_case hf (.r153 hs hb)⟩

/-- Settles O29: R154 and R155. -/
theorem parseStepTakesTheLengthInHeadFound : Obligations.ParseStepTakesTheLengthInHeadFound :=
  fun _ _ hf hs =>
    ⟨fun hb => exec_parseStep_of_case hf (.r154 hs hb),
      fun hb => exec_parseStep_of_case hf (.r155 hs (Nat.not_le_of_lt hb))⟩

/-- Settles O30: the checksum of an empty frame is its LEN byte 0x00 (R156, R157); else slot 0 is
stored (R158). -/
theorem parseStepInLengthReceived : Obligations.ParseStepInLengthReceived := by
  intro b s hf hs
  have hsum : s.pExpected = 0 → checksum [s.pExpected] = 0x00 := fun h0 => by
    rw [h0, checksum_singleton]
  refine ⟨fun h0 hb => ?accepted, fun h0 hb => ?dropped, fun h0 hmax => ?stored⟩
  case accepted => exact exec_parseStep_of_case hf (.r156 hs h0 (hb.trans (hsum h0).symm))
  case dropped => exact exec_parseStep_of_case hf (.r157 hs h0 (hsum h0 ▸ hb))
  case stored =>
    have hroom : 0 < s.cfg.maxDataLength := by bv_omega
    have hpc : ParseCase b s false (s.storeAt 0 b) := .r158 hs h0 hroom
    obtain ⟨hnew, hold⟩ := s.slots_of_storeAt 0 b
    exact ⟨_, exec_parseStep_of_case hf hpc, rfl, hnew, hold⟩

/-- Settles O31: R159 while bytes are missing, then R160 or R162. -/
theorem parseStepInDataReceiving : Obligations.ParseStepInDataReceiving := by
  intro b s hf hs hc
  have hall : s.pReceived = s.pExpected → ¬ s.pReceived < s.pExpected := fun h => by
    simp [h]
  refine ⟨fun hlt hmax => ?stored, fun heq hb => ?accepted, fun heq hb => ?dropped⟩
  case stored =>
    have hnext : (s.pReceived + 1).toNat = s.pReceived.toNat + 1 := by bv_omega
    have hroom : s.pReceived.toNat < s.cfg.maxDataLength := by bv_omega
    have hpc : ParseCase b s false (s.storeAt s.pReceived b) := .r159 hs hc hlt hroom
    obtain ⟨hnew, hold⟩ := s.slots_of_storeAt s.pReceived b
    refine ⟨_, exec_parseStep_of_case hf hpc, ?_, hnext, hnew, hold⟩
    rw [show s.pState = _ from hs]
    rfl
  case accepted => exact exec_parseStep_of_case hf (.r160 hs hc (hall heq) hb)
  case dropped => exact exec_parseStep_of_case hf (.r162 hs hc (hall heq) hb)

/-- Settles O32: R161 and R164; the invariant has no frame pending in DataReceiving. -/
theorem parseStepPublishesOnTail : Obligations.ParseStepPublishesOnTail := by
  intro b s hf hs hc
  refine ⟨fun hb hmax => ?published, fun h => h.inbox.ready_eq_false hs nofun,
    fun hb => exec_parseStep_of_case hf (.r164 hs hc hb)⟩
  case published =>
    have hpc : ParseCase b s true s.published := .r161 hs hc hb hmax
    exact ⟨_, exec_parseStep_of_case hf hpc, rfl,
      fun i hi => (s.slot_published .ibBuf i).trans (if_pos ⟨rfl, hi⟩),
      fun a i ha => (s.slot_published a i).trans (if_neg ha)⟩

/-- Settles O33: R165. -/
theorem parseStepIgnoresBytesInFrameComplete : Obligations.ParseStepIgnoresBytesInFrameComplete :=
  fun _ _ hf hs => exec_parseStep_of_case hf (.r165 hs)

/-- A frame is ready in the one transition R161 (R166). -/
theorem ParseCase.ready_iff {b : Byte} {s t : State} {ready : Bool} (hpc : ParseCase b s ready t) :
    ready = true ↔ s.inState .dataReceiving ∧ s.pCsOk = true ∧ b = s.cfg.tailByte := by
  have hother : ∀ {p}, s.inState p → p ≠ .dataReceiving → ¬ s.inState .dataReceiving :=
    fun hs hp hd => hp (State.inState_unique hs hd)
  cases hpc with
  | r152 hs | r153 hs | r154 hs | r155 hs | r156 hs | r157 hs | r158 hs | r165 hs =>
    exact iff_of_false nofun fun ⟨hd, _⟩ => hother hs nofun hd
  | r159 _ hc | r160 _ hc | r162 _ hc => simp [hc]
  | r161 hs hc hb => exact iff_of_true rfl ⟨hs, hc, hb⟩
  | r164 _ _ hb => simp [hb]

/-- What PARSE_STEP does, whenever it completes: one of the thirteen transitions, and its answer. -/
theorem exec_parseStep_cases {b : Byte} {s t : State} (h : exec (.parseStep b) s = .next t) :
    ∃ ready u, ParseCase b s ready u ∧ t = u.emit (.parseStep ready) := by
  obtain ⟨-, -, hcase⟩ := exec_cases h
  cases hcase with
  | parseStep b ready u hpc => exact ⟨ready, u, hpc, rfl⟩

/-- Settles O34: the answer is the transition's, and only R161's is FrameReady (`ParseCase.ready_iff`). -/
theorem frameReadyExactlyOnAcceptedTail : Obligations.FrameReadyExactlyOnAcceptedTail := by
  intro b s t h
  obtain ⟨ready, u, hpc, rfl⟩ := exec_parseStep_cases h
  rw [State.emit_outputs, hpc.outputs, ← hpc.ready_iff]
  exact ⟨fun hr => by rw [hr], fun hr => by rw [Bool.eq_false_of_not_eq_true hr]⟩

/-! ### PROCESS's first step (43_parser.md R172, R175) -/

section ProcessOnAFreePort

variable {s : State} (hf : s.consumerFree)
include hf

theorem exec_process_of_pending (hs : s.inState .frameComplete) :
    exec .process s = .next (s.emit (.process false)) := by
  show execProcess s = _
  rw [execProcess, onConsumerPort_of_free hf.1 hf.2, ParserState.ofCode_eq_some_iff.2 hs]
  rfl

theorem exec_process_of_open {p : ParserState} (hs : s.inState p) (hp : p ≠ .frameComplete) :
    exec .process s = .next { s with cOp := .inProcess } := by
  show execProcess s = _
  rw [execProcess, onConsumerPort_of_free hf.1 hf.2, ParserState.ofCode_eq_some_iff.2 hs]
  cases p with
  | frameComplete => exact absurd rfl hp
  | idle | headFound | lengthReceived | dataReceiving => rfl

end ProcessOnAFreePort

/-- Settles O36: the parser state alone decides. -/
theorem processStartsUnlessAFrameIsPending : Obligations.ProcessStartsUnlessAFrameIsPending := by
  intro s hf
  refine ⟨exec_process_of_pending hf, ?_⟩
  rintro (hs | hs | hs | hs) <;> exact exec_process_of_open hf hs nofun

/-! ### Which steps write the parser (43_parser.md R150) -/

/-- The parser's fields are the same (R27). -/
structure State.SameParser (s t : State) : Prop where
  pState : t.pState = s.pState
  pExpected : t.pExpected = s.pExpected
  pReceived : t.pReceived = s.pReceived
  pSum : t.pSum = s.pSum
  pCsOk : t.pCsOk = s.pCsOk
  pBuf : t.pBuf = s.pBuf

theorem ExecCase.sameParser {s t : State} {i : Instr} (hx : ExecCase s i t)
    (hparse : ∀ b, i ≠ .parseStep b) (htake : i ≠ .takeFrame) (hinit : i ≠ .init) :
    s.SameParser t := by
  cases hx with
  | parseStep b => exact absurd rfl (hparse b)
  | takeNothing | takeFrame => exact absurd rfl htake
  | init => exact absurd rfl hinit
  | _ => exact ⟨rfl, rfl, rfl, rfl, rfl, rfl⟩

/-- Settles O47: operation by operation (`ExecCase.sameParser`), and the Sink's and SEND's steps. -/
theorem onlyTheParserTakeAndInitWriteTheParser :
    Obligations.OnlyTheParserTakeAndInitWriteTheParser := by
  intro a s t h hmicro hreq
  suffices s.SameParser t from
    ⟨this.pState, this.pExpected, this.pReceived, this.pSum, this.pCsOk, this.pBuf⟩
  obtain ⟨r, i, rfl, hd, hi⟩ | ⟨rfl, -⟩ | ⟨ok, -, ha⟩ | ⟨-, hc⟩ := agentStep_cases h
  · obtain ⟨hparse, htake, hinit⟩ := hreq r rfl
    obtain ⟨-, -, hcase⟩ := exec_cases hi
    rw [hd] at hparse htake hinit
    exact hcase.sameParser (fun b => by simpa using hparse b) (by simpa using htake)
      (by simpa using hinit)
  · exact absurd rfl hmicro
  · obtain ⟨-, -, -, -, rfl⟩ := sinkAnswers_cases ha
    exact ⟨rfl, rfl, rfl, rfl, rfl, rfl⟩
  · obtain ⟨-, -, ok, -, rfl⟩ := sendComplete_cases hc
    exact ⟨rfl, rfl, rfl, rfl, rfl, rfl⟩

end Sys2Proof.Machine

/-! ### Runs of the agents' steps -/

namespace Sys2Proof.Machine

theorem agentStep_issue (i : Instr) (s : State) : agentStep (issue i) s = exec i s :=
  agentStep_request_of_decode (decodeOfEncodeIsTheInstruction i) s

theorem runAgents_cons_of_next {a : AgentStep} {s t : State} (h : agentStep a s = .next t)
    (rest : List AgentStep) : runAgents (a :: rest) s = runAgents rest t := by
  rw [runAgents, h]

theorem runAgents_append_of_next {as : List AgentStep} {s t : State} (h : runAgents as s = .next t)
    (bs : List AgentStep) : runAgents (as ++ bs) s = runAgents bs t := by
  induction as generalizing s with
  | nil =>
    cases h
    rfl
  | cons a as ih =>
    rw [runAgents] at h
    split at h
    · next u hu => rw [List.cons_append, runAgents_cons_of_next hu, ih h]
    · cases h
    · cases h

theorem runAgents_cfg {as : List AgentStep} {s t : State} (h : runAgents as s = .next t) :
    t.cfg = s.cfg := by
  induction as generalizing s with
  | nil =>
    cases h
    rfl
  | cons a as ih =>
    rw [runAgents] at h
    split at h
    · next u hu => exact (ih h).trans (agentStep_cfg_draw hu).1
    · cases h
    · cases h

theorem runAgents_deliver {s : State} (hl : s.cfg.legal = true) (hr : s.ringInRange) (bs : List Byte) :
    runAgents (deliver bs) s = .next (s.ringPutAll bs) := by
  induction bs generalizing s with
  | nil => rfl
  | cons b bs ih =>
    have hwrite : agentStep (issue (.rbWrite b)) s = .next (s.ringPut b) :=
      (agentStep_issue _ s).trans (exec_rbWrite_of_inRange hl hr b)
    exact (runAgents_cons_of_next hwrite _).trans (ih hl (hr.ringPut b))

/-! ### PROCESS's micro-steps (43_parser.md R172, R173) -/

/-- A PROCESS is in progress, in a legal build with the ring's indices in range: a micro-step is taken. -/
structure State.Processing (s : State) : Prop where
  legal : s.cfg.legal = true
  cOp : s.cOp = .inProcess
  ring : s.ringInRange

theorem processMicro_of_microCase {s t : State} (hp : s.Processing) (hm : MicroCase s t) :
    processMicro s = .next t := by
  have hin : s.ringIndicesInRange = true := (State.ringIndicesInRange_iff s).2 hp.ring
  rw [processMicro, inLegalBuild_of_legal hp.legal, if_pos hp.cOp]
  cases hm with
  | empty he => rw [ringRead_of_empty hin he]; rfl
  | frame u hne hpc | more _ hne hpc =>
    rw [ringRead_of_nonempty hin hne]
    simp only [parseByte_of_case hpc, endProcess, respond]

theorem agentStep_processMicro_of_microCase {s t : State} (hp : s.Processing) (hm : MicroCase s t) :
    agentStep .processMicro s = .next t :=
  processMicro_of_microCase hp hm

/-- The oldest unread byte is the one RB_READ takes. -/
theorem State.unread_cons {s : State} (hr : s.ringInRange) {b : Byte} {bs : List Byte}
    (hu : s.unread = b :: bs) :
    s.rbHead ≠ s.rbTail ∧ s.slot .rbBuf s.rbTail = b ∧ s.ringAdvance.unread = bs := by
  have hne : s.rbHead ≠ s.rbTail := fun he => by
    rw [(State.unread_eq_nil_iff hr).2 he] at hu
    cases hu
  rw [State.unread_ringAdvance hr.1 hr.2 hne] at hu
  obtain ⟨hb, hbs⟩ := List.cons.inj hu
  exact ⟨hne, hb, hbs⟩

/-- The parse of the byte that a micro-step reads does not end PROCESS: only the micro-step itself does. -/
theorem ParseCase.processing {b : Byte} {s t : State} {ready : Bool}
    (hpc : ParseCase b s.ringAdvance ready t) (hp : s.Processing) : t.Processing :=
  ⟨hpc.cfg ▸ hp.legal, hpc.cOp.trans hp.cOp, hpc.ringInRange hp.ring.ringAdvance⟩

/-! ### A micro-step and the Consumer's own RB_READ and PARSE_STEP -/

/-- The same state with another `c_op`. -/
def State.setOp (s : State) (op : ConsumerOp) : State := { s with cOp := op }

/-- The parser does not look at `c_op`. -/
theorem ParseCase.setOp {b : Byte} {s t : State} {ready : Bool} (hpc : ParseCase b s ready t)
    (op : ConsumerOp) : ParseCase b (s.setOp op) ready (t.setOp op) := by
  cases hpc with
  | r152 hs hb => exact .r152 hs hb
  | r153 hs hb => exact .r153 hs hb
  | r154 hs hb => exact .r154 hs hb
  | r155 hs hb => exact .r155 hs hb
  | r156 hs he hb => exact .r156 hs he hb
  | r157 hs he hb => exact .r157 hs he hb
  | r158 hs he hm => exact .r158 hs he hm
  | r159 hs hc ho hm => exact .r159 hs hc ho hm
  | r160 hs hc ho hb => exact .r160 hs hc ho hb
  | r162 hs hc ho hb => exact .r162 hs hc ho hb
  | r161 hs hc hb hm => exact .r161 hs hc hb hm
  | r164 hs hc hb => exact .r164 hs hc hb
  | r165 hs => exact .r165 hs

theorem State.setOp_self {s : State} {op : ConsumerOp} (h : s.cOp = op) : s.setOp op = s := by
  subst h
  rfl

/-- Settles O37: the Consumer's PARSE_STEP and the micro-step's run the same transition, since the parser
does not look at `c_op` (`ParseCase.setOp`). -/
theorem microStepReadsThenParses : Obligations.MicroStepReadsThenParses := by
  intro s hl hc hr
  have hp : s.Processing := ⟨hl, hc, hr⟩
  refine ⟨fun he => processMicro_of_microCase hp (.empty he), fun hne t ready hparse hout => ?_⟩
  obtain ⟨ready', u, hpc, rfl⟩ := exec_parseStep_cases hparse
  have huout : u.outputs = s.outputs := hpc.outputs
  obtain rfl : ready' = ready := by simpa [huout] using hout
  have hmicro : ParseCase (s.slot .rbBuf s.rbTail) s.ringAdvance ready' (u.setOp .inProcess) :=
    (State.setOp_self (s := s.ringAdvance) hc) ▸ hpc.setOp .inProcess
  cases ready' with
  | true =>
    have hfree : (u.setOp .inProcess).setOp .none = u := State.setOp_self (s := u) hpc.cOp
    calc processMicro s
        = .next (((u.setOp .inProcess).setOp .none).emit (.process true)) :=
          processMicro_of_microCase hp (.frame _ hne hmicro)
      _ = _ := by
        rw [hfree, ← huout]
        rfl
  | false =>
    rw [processMicro_of_microCase hp (.more _ hne hmicro), ← huout]
    rfl

/-! ### How long PROCESS runs (43_parser.md R176) -/

/-- Some first part of the steps ends the PROCESS in progress, with exactly one answer. -/
def ProcessEndsWithin (steps : List AgentStep) (s : State) : Prop :=
  ∃ pre suf, steps = pre ++ suf ∧
    ∃ t, runAgents pre s = .next t ∧ t.cOp = .none ∧
      ∃ ready, t.outputs = s.outputs ++ [.process ready]

theorem ProcessEndsWithin.of_step {a : AgentStep} {s t : State} {ready : Bool}
    (h : agentStep a s = .next t) (hc : t.cOp = .none)
    (hout : t.outputs = s.outputs ++ [.process ready]) (rest : List AgentStep) :
    ProcessEndsWithin (a :: rest) s :=
  ⟨[a], rest, rfl, t, runAgents_cons_of_next h [], hc, ready, hout⟩

theorem ProcessEndsWithin.cons {a : AgentStep} {s u : State} {rest : List AgentStep}
    (hend : ProcessEndsWithin rest u) (h : agentStep a s = .next u) (hout : u.outputs = s.outputs) :
    ProcessEndsWithin (a :: rest) s := by
  obtain ⟨pre, suf, rfl, t, hrun, hc, ready, ht⟩ := hend
  exact ⟨a :: pre, suf, rfl, t, (runAgents_cons_of_next h pre).trans hrun, hc, ready, hout ▸ ht⟩

theorem State.Inv.ringInRange {s : State} (h : s.Inv) : s.ringInRange := ⟨h.ring.head_lt, h.ring.tail_lt⟩

theorem State.Inv.exists_microCase {s : State} (h : s.Inv) : ∃ t, MicroCase s t := by
  by_cases he : s.rbHead = s.rbTail
  · exact ⟨_, .empty he⟩
  · have hparser : s.ringAdvance.ParserInv := h.parser.congr rfl rfl rfl rfl rfl rfl rfl rfl
    obtain ⟨ready, u, hpc⟩ := hparser.exists_parseCase (s.slot .rbBuf s.rbTail)
    cases ready with
    | true => exact ⟨_, .frame u he hpc⟩
    | false => exact ⟨u, .more u he hpc⟩

theorem State.ringCount_ringPut_le {s : State} (hl : s.cfg.legal = true) (hr : s.ringInRange) (b : Byte) :
    (s.ringPut b).ringCount ≤ s.ringCount + 1 := by
  rw [State.ringCount_ringPut ((Config.legal_iff _).1 hl).1 hr.1 hr.2]
  split <;> omega

/-- Each micro-step takes one of the bytes unread, each write adds one at most, and a micro-step with none
left ends PROCESS: so it ends when the micro-steps outnumber the bytes unread and the writes. -/
theorem processEndsWithin_of_many_microSteps {s : State} {steps : List AgentStep} (h : s.Inv)
    (hc : s.cOp = .inProcess) (hsteps : ∀ a ∈ steps, a = .processMicro ∨ ∃ b, a = issue (.rbWrite b))
    (hmany : s.ringCount + steps.length < 2 * steps.count .processMicro) : ProcessEndsWithin steps s := by
  induction steps generalizing s with
  | nil => simp at hmany
  | cons a rest ih =>
    rw [List.forall_mem_cons] at hsteps
    obtain ⟨rfl | ⟨b, rfl⟩, hrest⟩ := hsteps
    · obtain ⟨t, hm⟩ := h.exists_microCase
      have hstep : agentStep .processMicro s = .next t :=
        agentStep_processMicro_of_microCase ⟨h.legal, hc, h.ringInRange⟩ hm
      have hinv : t.Inv := hm.inv h hc
      cases hm with
      | empty => exact .of_step hstep rfl rfl rest
      | frame u _ hpc => exact .of_step hstep rfl (congrArg (· ++ _) hpc.outputs) rest
      | more _ hne hpc =>
        have hcount := State.ringCount_ringAdvance h.ring.head_lt h.ring.tail_lt hne
        rw [← hpc.ringCount] at hcount
        rw [List.length_cons, List.count_cons_self] at hmany
        exact (ih hinv (hpc.cOp.trans hc) hrest (by omega)).cons hstep hpc.outputs
    · have hstep : agentStep (issue (.rbWrite b)) s = .next (s.ringPut b) :=
        (agentStep_issue _ s).trans (exec_rbWrite_of_inRange h.legal h.ringInRange b)
      have hcount := State.ringCount_ringPut_le h.legal h.ringInRange b
      rw [List.length_cons, List.count_cons_of_ne (by simp [issue])] at hmany
      exact (ih (agentStep_inv h hstep) hc hrest (by omega)).cons hstep rfl

/-- Settles O38: `k + w + 1` micro-steps outnumber the `k` bytes unread and the `w` writes. -/
theorem processEndsAfterTheBytesBufferedAndWritten :
    Obligations.ProcessEndsAfterTheBytesBufferedAndWritten :=
  fun _ _ _ h hc hsteps hlen hmany =>
    processEndsWithin_of_many_microSteps h hc hsteps (by omega)

/-- One round of R176's run: a byte that is not HEAD is written into the empty ring, read and discarded. -/
theorem write_then_micro_of_idle {s : State} (hp : s.Processing) (hs : s.inState .idle)
    (he : s.rbHead = s.rbTail) {b : Byte} (hb : b ≠ s.cfg.headByte) :
    runAgents [issue (.rbWrite b), .processMicro] s = .next (s.ringPut b).ringAdvance ∧
      (s.ringPut b).ringAdvance.rbHead = (s.ringPut b).ringAdvance.rbTail := by
  have hpos : [b].length ≤ s.cfg.rbUsable := Config.rbUsable_pos hp.legal
  have hunread : (s.ringPut b).unread = [b] := unread_ringPutAll_of_fits hp.legal hp.ring he hpos
  obtain ⟨hne, hbyte, hrest⟩ := State.unread_cons (hp.ring.ringPut b) hunread
  have hmicro : agentStep .processMicro (s.ringPut b) = .next (s.ringPut b).ringAdvance :=
    agentStep_processMicro_of_microCase ⟨hp.legal, hp.cOp, hp.ring.ringPut b⟩
      (.more _ hne (.r153 hs (hbyte.trans_ne hb)))
  refine ⟨?_, (State.unread_eq_nil_iff (hp.ring.ringPut b).ringAdvance).1 hrest⟩
  rw [runAgents_cons_of_next ((agentStep_issue _ s).trans (exec_rbWrite_of_inRange hp.legal hp.ring b))]
  exact runAgents_cons_of_next hmicro []

/-- Settles O39: by induction on the rounds, each of which leads back to an empty ring in Idle. -/
theorem processGoesOnWhileTheProducerWrites : Obligations.ProcessGoesOnWhileTheProducerWrites := by
  intro s b n hl hc hr hs he hb
  induction n generalizing s with
  | zero => exact ⟨s, rfl, hc, rfl⟩
  | succ n ih =>
    obtain ⟨hround, hempty⟩ := write_then_micro_of_idle ⟨hl, hc, hr⟩ hs he hb
    obtain ⟨t, hrun, htc, hout⟩ :=
      ih (s.ringPut b).ringAdvance hl hc (hr.ringPut b).ringAdvance hs hempty hb
    refine ⟨t, ?_, htc, hout⟩
    rw [List.replicate_succ, List.flatten_cons, runAgents_append_of_next hround, hrun]

end Sys2Proof.Machine

/-! ### A corrupted frame is dropped (43_parser.md R179) -/

namespace Sys2Proof.Machine

/-- PARSE_STEP of each byte leads from `s` to `t`, with no frame ready on any of them. -/
structure ParsedSilently (bs : List Byte) (s t : State) : Prop where
  run : execAll (bs.map .parseStep) s = .next t
  outputs : t.outputs = s.outputs ++ List.replicate bs.length (.parseStep false)
  cfg : t.cfg = s.cfg
  free : t.consumerFree

theorem ParsedSilently.nil {s : State} (hf : s.consumerFree) : ParsedSilently [] s s :=
  ⟨rfl, (List.append_nil _).symm, rfl, hf⟩

theorem ParsedSilently.append {as bs : List Byte} {s t u : State} (h : ParsedSilently as s t)
    (h' : ParsedSilently bs t u) : ParsedSilently (as ++ bs) s u where
  run := by rw [List.map_append, execAll_append_of_next h.run, h'.run]
  outputs := by
    rw [h'.outputs, h.outputs, List.append_assoc, List.replicate_append_replicate, List.length_append]
  cfg := h'.cfg.trans h.cfg
  free := h'.free

theorem ParseCase.parsedSilently {b : Byte} {s u : State} (hpc : ParseCase b s false u)
    (hf : s.consumerFree) : ParsedSilently [b] s (u.emit (.parseStep false)) where
  run := execAll_cons_of_next (exec_parseStep_of_case hf hpc) []
  outputs := congrArg (· ++ _) hpc.outputs
  cfg := hpc.cfg
  free := ⟨hpc.cfg ▸ hf.1, hpc.cOp.trans hf.2⟩

/-- The next bytes of a frame, the last one not among them (R140). -/
theorem State.Awaits.exists_parsedSilently {s : State} {p bs rest : List Byte} (hf : s.consumerFree)
    (hfit : s.cfg.fits p = true) (h : s.Awaits p (bs ++ rest)) (hrest : rest ≠ []) :
    ∃ t, ParsedSilently bs s t ∧ t.Awaits p rest := by
  obtain ⟨t, hrun, ht, hout, hcfg, hfree⟩ := execAll_parseSteps_of_awaits hf hfit h hrest
  exact ⟨t, ⟨hrun, hout, hcfg, hfree⟩, ht⟩

/-- The bytes are dropped: parsed with no frame ready, and the parser hunts for HEAD after them. -/
def Dropped (bs : List Byte) (s : State) : Prop := ∃ t, ParsedSilently bs s t ∧ t.inState .idle

/-- In Idle bytes other than HEAD are discarded (R153). -/
theorem dropped_of_not_mem_head {s : State} {bs : List Byte} (hf : s.consumerFree)
    (hs : s.inState .idle) (hbs : s.cfg.headByte ∉ bs) : Dropped bs s := by
  induction bs generalizing s with
  | nil => exact ⟨s, .nil hf, hs⟩
  | cons b bs ih =>
    obtain ⟨hb, hrest⟩ := List.ne_and_not_mem_of_not_mem_cons hbs
    have hfirst := (ParseCase.r153 hs hb.symm).parsedSilently hf
    obtain ⟨t, ht, hidle⟩ := ih hfirst.free hs hrest
    exact ⟨t, hfirst.append ht, hidle⟩

theorem Dropped.of_append {as bs : List Byte} {s t : State} (h : ParsedSilently as s t)
    (hd : Dropped bs t) : Dropped (as ++ bs) s := by
  obtain ⟨u, hu, hidle⟩ := hd
  exact ⟨u, h.append hu, hidle⟩

/-- A byte that resyncs the parser (R163), and bytes after it among which there is no HEAD. -/
theorem Dropped.of_resync {b : Byte} {bs : List Byte} {s : State} (hf : s.consumerFree)
    (hpc : ParseCase b s false s.resync) (hbs : s.cfg.headByte ∉ bs) : Dropped (b :: bs) s := by
  have hfirst := hpc.parsedSilently hf
  exact .of_append hfirst (dropped_of_not_mem_head hfirst.free rfl hbs)

/-- Where CHECKSUM and TAIL are still to come, the whole payload has been heard. -/
theorem State.Awaits.hasReceived {s : State} {p : List Byte} {b b' : Byte} (h : s.Awaits p [b, b']) :
    s.HasReceived p p := by
  generalize hbs : [b, b'] = bs at h
  have hlen := congrArg List.length hbs
  cases h with
  | checksum h => exact h
  | head | length | payload | tail =>
    simp only [frameEnd, List.length_cons, List.length_append, List.length_nil] at hlen
    omega

/-- With the whole payload heard, no payload byte is expected any more. -/
theorem State.HasReceived.not_received_lt_expected {s : State} {p : List Byte} (h : s.HasReceived p p) :
    ¬ s.pReceived < s.pExpected := by
  have hle : (lenByte p).toNat ≤ p.length := Nat.mod_le _ _
  rw [BitVec.lt_def, h.received, h.expected]
  omega

/-- A byte other than the checksum resyncs, after an empty payload (R157) and after any other (R162). -/
theorem parseCase_wrong_checksum {s : State} {p : List Byte} {x : Byte} (h : s.HasReceived p p)
    (hx : x ≠ checksum (lenByte p :: p)) : ParseCase x s false s.resync := by
  have hs := h.inState
  by_cases hp : p = []
  · subst hp
    exact .r157 hs h.expected (h.expected.symm ▸ hx)
  · rw [if_neg hp] at hs
    exact .r162 hs h.csOk h.not_received_lt_expected (h.sum.symm ▸ hx)

section CorruptedFrame

variable {s : State} {p : List Byte} {x : Byte} (hf : s.consumerFree) (hs : s.inState .idle)
include hf hs

/-- R179 (a). -/
theorem dropped_of_wrong_tail (hfit : s.cfg.fits p = true) (hx : x ≠ s.cfg.tailByte) :
    Dropped ([s.cfg.headByte, lenByte p] ++ p ++ [checksum (lenByte p :: p), x]) s := by
  have hstart := State.awaits_encodeFrame p hs
  rw [encodeFrame_eq_append_tail] at hstart
  obtain ⟨t, ht, hawaits⟩ := hstart.exists_parsedSilently hf hfit (List.cons_ne_nil _ [])
  obtain ⟨-, htail⟩ := hawaits.awaitsTail
  have hpc : ParseCase x t false t.resync := .r164 htail.inState htail.csOk (ht.cfg.symm ▸ hx)
  simpa using Dropped.of_append ht (.of_resync ht.free hpc List.not_mem_nil)

/-- R179 (b). -/
theorem dropped_of_wrong_checksum (hfit : s.cfg.fits p = true) (hx : x ≠ checksum (lenByte p :: p))
    (htail : s.cfg.tailByte ≠ s.cfg.headByte) :
    Dropped ([s.cfg.headByte, lenByte p] ++ p ++ [x, s.cfg.tailByte]) s := by
  have hstart := State.awaits_encodeFrame p hs
  obtain ⟨t, ht, hawaits⟩ := hstart.exists_parsedSilently hf hfit (List.cons_ne_nil _ _)
  refine .of_append ht (.of_resync ht.free (parseCase_wrong_checksum hawaits.hasReceived hx) ?_)
  simpa [ht.cfg] using htail.symm

/-- R179 (c). -/
theorem dropped_of_large_len (hx : s.cfg.maxDataLength < x.toNat) {bs : List Byte}
    (hbs : s.cfg.headByte ∉ bs) : Dropped (s.cfg.headByte :: x :: bs) s := by
  have hhead := (ParseCase.r152 hs rfl).parsedSilently hf
  exact .of_append hhead (.of_resync hhead.free (.r155 rfl (Nat.not_le_of_lt hx)) hbs)

end CorruptedFrame

/-- Settles O41: the corrupted frame is dropped in each of the three cases, and from Idle the next frame is
received (O40). -/
theorem corruptedFrameIsDroppedAndTheNextReceived :
    Obligations.CorruptedFrameIsDroppedAndTheNextReceived := by
  intro s p q x hf hs hp hq bad hbad
  have hfit : s.cfg.fits p = true := (s.cfg.fits_iff p).2 hp
  have hdropped : Dropped bad s := by
    obtain ⟨hx, rfl⟩ | ⟨hx, htail, rfl⟩ | ⟨hx, hhead, rfl⟩ := hbad
    · exact dropped_of_wrong_tail hf hs hfit hx
    · exact dropped_of_wrong_checksum hf hs hfit hx htail
    · exact dropped_of_large_len hf hs hx hhead
  obtain ⟨t, ht, hidle⟩ := hdropped
  obtain ⟨u, hrun, hout, -, hready, hlen, hpayload⟩ :=
    encodedFrameParsesBackToItsPayload t q ht.free hidle (ht.cfg.symm ▸ hq)
  refine ⟨u, ?_, ?_, hready, hlen, hpayload⟩
  · rw [List.map_append, execAll_append_of_next ht.run, ← ht.cfg, hrun]
  · rw [hout, ht.outputs, List.append_assoc s.outputs, List.replicate_append_replicate, Nat.add_assoc]

end Sys2Proof.Machine

/-! ### A buffered frame is processed and taken (43_parser.md R172, R173, R178; 44_inbox_and_control.md
R191) -/

namespace Sys2Proof.Machine

/-- A read of the ring touches none of the parser's fields. -/
theorem State.Awaits.ringAdvance {s : State} {p bs : List Byte} (h : s.Awaits p bs) :
    s.ringAdvance.Awaits p bs := by
  cases h with
  | head hs => exact .head (s := s.ringAdvance) hs
  | length hs hc hr => exact .length (s := s.ringAdvance) hs hc hr
  | payload pre post b hp h => exact .payload (s := s.ringAdvance) pre post b hp { h with }
  | checksum h => exact .checksum (s := s.ringAdvance) { h with }
  | tail h => exact .tail (s := s.ringAdvance) { h with }

/-- Micro-steps over the next bytes of a frame, the last one not among them, answer nothing. -/
theorem runAgents_microSteps_of_awaits {s : State} {p bs rest after : List Byte} (hp : s.Processing)
    (hfit : s.cfg.fits p = true) (h : s.Awaits p (bs ++ rest)) (hrest : rest ≠ [])
    (hu : s.unread = bs ++ after) :
    ∃ t, runAgents (List.replicate bs.length .processMicro) s = .next t ∧ t.Processing ∧
      t.Awaits p rest ∧ t.unread = after ∧ t.outputs = s.outputs := by
  induction bs generalizing s with
  | nil => exact ⟨s, rfl, hp, h, hu, rfl⟩
  | cons b bs ih =>
    obtain ⟨hne, rfl, hafter⟩ := State.unread_cons hp.ring hu
    obtain ⟨u, hpc, hawaits⟩ :=
      h.ringAdvance.exists_parseCase (s := s.ringAdvance) hp.legal hfit (by simp [hrest])
    obtain ⟨t, hrun, htp, ht, htu, hout⟩ :=
      ih (hpc.processing hp) (hpc.cfg ▸ hfit) hawaits (hpc.unread.trans hafter)
    refine ⟨t, ?_, htp, ht, htu, hout.trans hpc.outputs⟩
    rw [List.length_cons, List.replicate_succ,
      runAgents_cons_of_next (agentStep_processMicro_of_microCase hp (.more _ hne hpc)), hrun]

/-- PROCESS has ended with the frame of `p`, which is pending. -/
structure State.FramePending (s : State) (p : List Byte) : Prop where
  free : s.consumerFree
  ready : s.ibReady = true
  len : s.ibLen = lenByte p
  payload : s.slots .ibBuf p.length = p

/-- The micro-step over TAIL publishes the frame and ends PROCESS (R161, R172). -/
theorem agentStep_processMicro_of_awaitsTail {s : State} {p after : List Byte} (hp : s.Processing)
    (hfit : s.cfg.fits p = true) (h : s.AwaitsTail p) (hu : s.unread = s.cfg.tailByte :: after) :
    ∃ t, agentStep .processMicro s = .next t ∧ t.FramePending p ∧ t.unread = after ∧ t.ringInRange ∧
      t.outputs = s.outputs ++ [.process true] := by
  obtain ⟨hne, hbyte, hafter⟩ := State.unread_cons hp.ring hu
  have hread : s.ringAdvance.AwaitsTail p := { h with }
  obtain ⟨hpc, hpayload⟩ := parseCase_tail (s := s.ringAdvance) hp.legal hfit hread
  rw [State.ringAdvance_cfg, ← hbyte] at hpc
  exact ⟨_, agentStep_processMicro_of_microCase hp (.frame _ hne hpc),
    ⟨⟨hp.legal, rfl⟩, rfl, h.expected, hpayload⟩, hpc.unread.trans hafter, hp.ring.ringAdvance, rfl⟩

/-- All micro-steps over the frame of `p`, from Idle. -/
theorem runAgents_microSteps_of_frame {s : State} {p after : List Byte} (hp : s.Processing)
    (hs : s.inState .idle) (hfit : s.cfg.fits p = true) (hu : s.unread = encodeFrame s.cfg p ++ after) :
    ∃ t, runAgents (List.replicate (p.length + 4) .processMicro) s = .next t ∧ t.FramePending p ∧
      t.unread = after ∧ t.ringInRange ∧ t.outputs = s.outputs ++ [.process true] := by
  have hstart := State.awaits_encodeFrame p hs
  rw [encodeFrame_eq_append_tail] at hstart hu
  obtain ⟨t, hrun, htp, hawaits, htu, hout⟩ := runAgents_microSteps_of_awaits hp hfit hstart
    (List.cons_ne_nil _ []) (hu.trans (List.append_assoc _ _ _))
  have hcfg : t.cfg = s.cfg := runAgents_cfg hrun
  rw [← hcfg] at hfit htu
  obtain ⟨-, htail⟩ := hawaits.awaitsTail
  obtain ⟨u, hlast, hpending, huu, hring, huout⟩ :=
    agentStep_processMicro_of_awaitsTail htp hfit htail htu
  refine ⟨u, ?_, hpending, huu, hring, hout ▸ huout⟩
  rw [List.replicate_succ', runAgents_append_of_next (t := t) (by simpa using hrun),
    runAgents_cons_of_next hlast]
  rfl

/-- TAKE_FRAME returns the pending frame's payload and length (R191). -/
theorem exec_takeFrame_of_framePending {s : State} {p : List Byte} (h : s.FramePending p)
    (hfit : s.cfg.fits p = true) :
    exec .takeFrame s = .next (s.takeInbox.emit (.takeFrame .ok p (lenByte p))) := by
  have hlen : (lenByte p).toNat = p.length := lenByte_toNat h.free.1 hfit
  have hmax : (lenByte p).toNat ≤ s.cfg.maxDataLength := hlen.trans_le ((s.cfg.fits_iff p).1 hfit)
  show execTakeFrame s = _
  rw [execTakeFrame, onConsumerPort_of_free h.free.1 h.free.2, if_neg (by simp [h.ready]), h.len,
    if_pos hmax, hlen, h.payload]
  rfl

/-- PROCESS and TAKE_FRAME over a frame that stands first in the ring. -/
theorem runAgents_processThenTake {s : State} {p after : List Byte} (hf : s.consumerFree)
    (hr : s.ringInRange) (hs : s.inState .idle) (hfit : s.cfg.fits p = true)
    (hu : s.unread = encodeFrame s.cfg p ++ after) :
    ∃ t, runAgents (processThenTake (p.length + 4)) s = .next t ∧
      t.outputs = s.outputs ++ [.process true, .takeFrame .ok p (lenByte p)] ∧
      t.unread = after ∧ t.ringInRange ∧ t.inState .idle ∧ t.ibReady = false ∧ t.cOp = .none := by
  have hstart : agentStep (issue .process) s = .next (s.setOp .inProcess) :=
    (agentStep_issue _ s).trans (exec_process_of_open hf hs nofun)
  obtain ⟨t, hrun, hpending, htu, hring, hout⟩ :=
    runAgents_microSteps_of_frame (s := s.setOp .inProcess) ⟨hf.1, rfl, hr⟩ hs hfit hu
  have hcfg : t.cfg = s.cfg := (runAgents_cfg hrun :)
  have htake : agentStep (issue .takeFrame) t = .next (t.takeInbox.emit (.takeFrame .ok p (lenByte p))) :=
    (agentStep_issue _ t).trans (exec_takeFrame_of_framePending hpending (hcfg ▸ hfit))
  refine ⟨t.takeInbox.emit (.takeFrame .ok p (lenByte p)), ?run, ?outputs, htu, hring, rfl, rfl,
    hpending.free.2⟩
  case run =>
    rw [processThenTake, runAgents_cons_of_next hstart, runAgents_append_of_next hrun,
      runAgents_cons_of_next htake]
    rfl
  case outputs =>
    show t.outputs ++ [_] = _
    rw [hout, List.append_assoc]
    rfl

/-- Settles O42: the micro-steps over the frame's bytes, then the take (`runAgents_processThenTake`). -/
theorem bufferedFrameIsProcessedAndTaken : Obligations.BufferedFrameIsProcessedAndTaken := by
  intro s p rest hf hr hs hmax hu
  obtain ⟨t, hrun, hout, htu, -, hidle, hready, hc⟩ :=
    runAgents_processThenTake hf hr hs ((s.cfg.fits_iff p).2 hmax) hu
  exact ⟨t, hrun, hout, htu, hidle, hready, hc⟩

/-- Two frames that are all the bytes unread are taken one after the other (R178). -/
theorem runAgents_processThenTake_twice {s : State} {p q : List Byte} (hf : s.consumerFree)
    (hr : s.ringInRange) (hs : s.inState .idle) (hp : s.cfg.fits p = true) (hq : s.cfg.fits q = true)
    (hu : s.unread = encodeFrame s.cfg p ++ encodeFrame s.cfg q) :
    ∃ t, runAgents (processThenTake (p.length + 4) ++ processThenTake (q.length + 4)) s = .next t ∧
      t.outputs = s.outputs ++
        [.process true, .takeFrame .ok p (lenByte p), .process true, .takeFrame .ok q (lenByte q)] ∧
      t.rbHead = t.rbTail ∧ t.inState .idle := by
  obtain ⟨t, hfirst, htout, htu, htr, htidle, -, htc⟩ := runAgents_processThenTake hf hr hs hp hu
  have hcfg : t.cfg = s.cfg := runAgents_cfg hfirst
  rw [← hcfg] at hq htu
  obtain ⟨u, hsecond, huout, huu, hur, huidle, -⟩ :=
    runAgents_processThenTake (after := []) ⟨hcfg ▸ hf.1, htc⟩ htr htidle hq
      (htu.trans (List.append_nil _).symm)
  refine ⟨u, ?run, ?outputs, (State.unread_eq_nil_iff hur).1 huu, huidle⟩
  case run => rw [runAgents_append_of_next hfirst, hsecond]
  case outputs => rw [huout, htout, List.append_assoc]; rfl

@[simp] theorem State.ringPutAll_pState (s : State) (bs : List Byte) :
    (s.ringPutAll bs).pState = s.pState := by
  rw [State.ringPutAll_frame]

/-- Settles O43: both frames are unread once delivered, and then taken in order
(`runAgents_processThenTake_twice`). -/
theorem backlogOfTwoFramesIsReceivedOneAtATime : Obligations.BacklogOfTwoFramesIsReceivedOneAtATime := by
  intro s p q hf hr hs he hp hq hroom
  have hfit : (encodeFrame s.cfg p ++ encodeFrame s.cfg q).length ≤ s.cfg.rbUsable := by
    simpa [encodeFrame_length] using hroom
  have hunread := unread_ringPutAll_of_fits hf.1 hr he hfit
  rw [← Config.fits_iff] at hp hq
  obtain ⟨t, hrun, hout, hempty, hidle⟩ :=
    runAgents_processThenTake_twice (p := p) (q := q)
      (hf.ringPutAll (encodeFrame s.cfg p ++ encodeFrame s.cfg q)) (hr.ringPutAll _)
      ((State.ringPutAll_pState s _).trans hs) (by rwa [State.ringPutAll_cfg])
      (by rwa [State.ringPutAll_cfg]) (by rw [State.ringPutAll_cfg, hunread])
  refine ⟨t, ?_, State.ringPutAll_outputs s _ ▸ hout, hempty, hidle⟩
  rw [List.append_assoc, runAgents_append_of_next (runAgents_deliver hf.1 hr _), hrun]

end Sys2Proof.Machine

/-! ### TAKE_FRAME, and what takes the parser out of FrameComplete (44_inbox_and_control.md R190 to R192;
90_conflicts.md C13) -/

namespace Sys2Proof.Machine

/-- At most one of the thirteen transitions applies to a byte (R169). -/
theorem ParseCase.unique {b : Byte} {s t u : State} {ready ready' : Bool} (ht : ParseCase b s ready t)
    (hu : ParseCase b s ready' u) : ready = ready' ∧ t = u := by
  simpa using (parseByte_of_case ht).symm.trans (parseByte_of_case hu)

/-- Bytes do not move the parser on while a frame is pending (R165). -/
theorem ParseCase.inState_frameComplete {b : Byte} {s t : State} {ready : Bool}
    (hpc : ParseCase b s ready t) (hs : s.inState .frameComplete) : t.inState .frameComplete := by
  obtain ⟨-, rfl⟩ := hpc.unique (.r165 hs)
  exact hs

theorem ExecCase.takeFrame_or_init_of_leaves_frameComplete {s t : State} {i : Instr}
    (hx : ExecCase s i t) (hs : s.inState .frameComplete) (ht : ¬ t.inState .frameComplete) :
    i = .takeFrame ∨ i = .init := by
  cases hx with
  | takeFrame => exact .inl rfl
  | init => exact .inr rfl
  | parseStep b ready u hpc => exact absurd (hpc.inState_frameComplete hs) ht
  | _ => exact absurd hs ht

theorem MicroCase.inState_frameComplete {s t : State} (hm : MicroCase s t)
    (hs : s.inState .frameComplete) : t.inState .frameComplete := by
  cases hm with
  | empty => exact hs
  | frame u _ hpc | more u _ hpc => exact hpc.inState_frameComplete (s := s.ringAdvance) hs

/-- Settles O46: a parsed byte stays in FrameComplete (R165), whoever parses it, and of the other
operations only the two write `p_state`. -/
theorem onlyTakeAndInitLeaveFrameComplete : Obligations.OnlyTakeAndInitLeaveFrameComplete := by
  intro a s t h hs ht
  obtain ⟨r, i, rfl, hd, hi⟩ | ⟨-, hm⟩ | ⟨ok, -, ha⟩ | ⟨-, hc⟩ := agentStep_cases h
  · obtain ⟨-, -, hcase⟩ := exec_cases hi
    exact ⟨r, rfl, by simpa [hd] using hcase.takeFrame_or_init_of_leaves_frameComplete hs ht⟩
  · obtain ⟨-, -, -, hcase⟩ := processMicro_cases hm
    exact absurd (hcase.inState_frameComplete hs) ht
  · obtain ⟨-, -, -, -, rfl⟩ := sinkAnswers_cases ha
    exact absurd hs ht
  · obtain ⟨-, -, ok, -, rfl⟩ := sendComplete_cases hc
    exact absurd hs ht

section ControlOnAFreePort

variable {s : State} (hf : s.consumerFree)
include hf

theorem exec_takeFrame_of_not_ready (hr : s.ibReady = false) :
    exec .takeFrame s = .next (s.emit (.takeFrame .noFrameAvailable [] 0x00)) :=
  (onConsumerPort_of_free hf.1 hf.2 _).trans (if_pos hr)

theorem exec_takeFrame_of_ready (hr : s.ibReady = true) (hlen : s.ibLen.toNat ≤ s.cfg.maxDataLength) :
    exec .takeFrame s = .next
      (s.takeInbox.emit (.takeFrame .ok (s.slots .ibBuf s.ibLen.toNat) s.ibLen)) :=
  (onConsumerPort_of_free hf.1 hf.2 _).trans ((if_neg (by simp [hr])).trans (if_pos hlen))

theorem exec_init_of_free : exec .init s = .next s.initRegisters :=
  onConsumerPort_of_free hf.1 hf.2 _

theorem exec_startRx_of_free : exec .startRx s = .next (s.emit .startRequest) :=
  onConsumerPort_of_free hf.1 hf.2 _

theorem exec_stopRx_of_free : exec .stopRx s = .next (s.emit .stopRequest) :=
  onConsumerPort_of_free hf.1 hf.2 _

end ControlOnAFreePort

/-- Settles O44: the two outcomes of TAKE_FRAME, by `ib_ready`. -/
theorem takeFrameReturnsThePendingFrame : Obligations.TakeFrameReturnsThePendingFrame :=
  fun _ hf => ⟨exec_takeFrame_of_not_ready hf, exec_takeFrame_of_ready hf⟩

/-- A take leaves the port free and nothing pending, whether it found a frame or not (R192). -/
theorem exec_takeFrame_leaves_nothing_pending {s t : State} (h : exec .takeFrame s = .next t) :
    t.consumerFree ∧ t.ibReady = false := by
  obtain ⟨hl, hc, hcase⟩ := exec_cases h
  have hfree : s.consumerFree := ⟨hl, hc.resolve_left nofun⟩
  cases hcase with
  | takeNothing hr => exact ⟨hfree, hr⟩
  | takeFrame => exact ⟨hfree, rfl⟩

/-- Settles O45: the first take leaves nothing pending. -/
theorem secondTakeFindsNothing : Obligations.SecondTakeFindsNothing := by
  intro s t h
  obtain ⟨hf, hr⟩ := exec_takeFrame_leaves_nothing_pending h
  exact exec_takeFrame_of_not_ready hf hr

/-! ### INIT, START_RX and STOP_RX (44_inbox_and_control.md R196, R200, R202; 10_state.md R36) -/

/-- INIT's registers are those of the build's reset state; what it keeps is the arrays, the frame with
the Sink and the model's own fields (R196, R240). -/
theorem State.initRegisters_eq_resetWith {s : State} (hc : s.cOp = .none) :
    s.initRegisters = { State.resetWith s.cfg s.draw with
      rbBuf := s.rbBuf, pBuf := s.pBuf, ibBuf := s.ibBuf
      cSend := s.cSend, sinkAnswer := s.sinkAnswer
      outputs := s.outputs, schedule := s.schedule, turn := s.turn } := by
  rw [State.initRegisters, hc]
  rfl

/-- Settles O49: INIT's next state, compared with the reset state. -/
theorem initPutsEveryRegisterAtItsResetValue : Obligations.InitPutsEveryRegisterAtItsResetValue :=
  fun s hf => ⟨s.initRegisters, exec_init_of_free hf, rfl, State.initRegisters_eq_resetWith hf.2⟩

/-- The byte just written is the newest unread byte (R102). -/
theorem unread_ringPut_getLast? {s : State} (hl : s.cfg.legal = true) (hr : s.ringInRange) (b : Byte) :
    (s.ringPut b).unread.getLast? = some b := by
  have h2 : 2 ≤ s.cfg.rbSize := ((Config.legal_iff _).1 hl).1
  rw [State.unread_ringPut h2 hr.1 hr.2, List.getLast?_append_cons, List.getLast?_singleton]

/-- After an operation that only sends something out the Producer's write is stored as ever. -/
theorem execAll_output_then_rbWrite {i : Instr} {o : Output} {s : State} (hl : s.cfg.legal = true)
    (hr : s.ringInRange) (hi : exec i s = .next (s.emit o)) (b : Byte) :
    ∃ t, execAll [i, .rbWrite b] s = .next t ∧ t.unread.getLast? = some b := by
  have hwrite : exec (.rbWrite b) (s.emit o) = .next ((s.emit o).ringPut b) :=
    exec_rbWrite_of_inRange (s := s.emit o) hl hr b
  refine ⟨(s.emit o).ringPut b, ?_, unread_ringPut_getLast? (s := s.emit o) hl hr b⟩
  rw [execAll_cons_of_next hi, execAll_cons_of_next hwrite]
  rfl

/-- Settles O50: each request is only sent out, and the write after it finds the ring as it was. -/
theorem startAndStopOnlySendARequest : Obligations.StartAndStopOnlySendARequest := by
  refine ⟨decodeOfEncodeIsTheInstruction .startRx, decodeOfEncodeIsTheInstruction .stopRx,
    fun s hf => ?_⟩
  have hstart := exec_startRx_of_free hf
  have hstop := exec_stopRx_of_free hf
  refine ⟨hstart, hstop, fun hr b => ?_⟩
  obtain ⟨t, ht, htlast⟩ := execAll_output_then_rbWrite hf.1 hr hstart b
  obtain ⟨u, hu, hulast⟩ := execAll_output_then_rbWrite hf.1 hr hstop b
  exact ⟨t, u, ht, hu, htlast, hulast⟩

end Sys2Proof.Machine

/-! ### Every byte is answered, and who steps while the Consumer is busy (60_exceptions.md R214, R225 to
R227) -/

namespace Sys2Proof.Machine

/-- Settles O35: under the invariant one of R169's transitions applies to the byte
(`exists_parseCase`), and PARSE_STEP keeps the invariant, whose clause (f) says that `p_state` is one of
the five. -/
theorem everyByteHasATransition : Obligations.EveryByteHasATransition := by
  intro b s h hc
  obtain ⟨ready, u, hpc⟩ := h.parser.exists_parseCase b
  have hx : exec (.parseStep b) s = .next (u.emit (.parseStep ready)) :=
    exec_parseStep_of_case ⟨h.legal, hc⟩ hpc
  exact ⟨_, hx, (exec_inv h hx).parser.state_legal⟩

/-- Settles O7: the step is the scheduled agent's (`step_of_schedule_cons`), and these three steps of
an agent are its own, with nothing to decode. -/
theorem stepTakesTheScheduledAgentStep : Obligations.StepTakesTheScheduledAgentStep :=
  fun _ _ => ⟨step_of_schedule_cons, fun _ => step_of_schedule_cons, step_of_schedule_cons⟩

theorem onConsumerPort_of_busy {s : State} (hl : s.cfg.legal = true) (hc : s.cOp ≠ .none) (k : Result) :
    onConsumerPort s k = .refused .consumerBusy :=
  (inLegalBuild_of_legal hl _).trans (if_neg hc)

/-- The eleven operations of the Consumer are behind its port's guard. -/
theorem exec_of_busy {s : State} (hl : s.cfg.legal = true) (hc : s.cOp ≠ .none) {i : Instr}
    (hi : ∀ b, i ≠ .rbWrite b) : exec i s = .refused .consumerBusy := by
  cases i with
  | rbWrite b => exact absurd rfl (hi b)
  | rbRead | rbAvailable | checksum | encode | send | parseStep | process | takeFrame | init | startRx
  | stopRx => exact onConsumerPort_of_busy hl hc _

/-- Settles O10: the Consumer's port is closed (`exec_of_busy`), and RB_WRITE, which does not look at
`c_op`, does not write it either. -/
theorem busyConsumerIsRefusedAndTheProducerIsNot :
    Obligations.BusyConsumerIsRefusedAndTheProducerIsNot :=
  fun s hl hc => ⟨fun _ => exec_of_busy hl hc,
    fun hr b => ⟨s.ringPut b, exec_rbWrite_of_inRange hl hr b, rfl⟩⟩

/-- The Sink's one step for the frame that is with it (R226). -/
theorem sinkAnswers_of_unanswered {s : State} (hl : s.cfg.legal = true) (hc : s.cOp = .inSend)
    (hs : s.cSend.isSome = true) (ha : s.sinkAnswer = none) (ok : Bool) :
    sinkAnswers ok s = .next { s with sinkAnswer := some ok } :=
  (inLegalBuild_of_legal hl _).trans (if_pos ⟨hc, hs, ha⟩)

/-- The Sink has no step with no frame handed to it, and none after its answer. -/
theorem sinkAnswers_of_no_frame_awaiting {s : State} (hl : s.cfg.legal = true)
    (hno : s.cSend = none ∨ s.sinkAnswer.isSome = true) (ok : Bool) :
    sinkAnswers ok s = .refused .noFrameForSink := by
  refine (inLegalBuild_of_legal hl _).trans (if_neg fun ⟨_, hs, ha⟩ => ?_)
  rcases hno with hn | hn
  · simp [hn] at hs
  · simp [ha] at hn

/-- Settles O27: the recorded answer leaves no frame awaiting one. -/
theorem sinkAnswersOncePerFrame : Obligations.SinkAnswersOncePerFrame :=
  fun s ok hl =>
    ⟨fun hc hs ha => ⟨{ s with sinkAnswer := some ok }, sinkAnswers_of_unanswered hl hc hs ha ok, rfl,
      sinkAnswers_of_no_frame_awaiting hl (.inr rfl)⟩,
    fun hn => sinkAnswers_of_no_frame_awaiting hl (.inl hn) ok⟩

end Sys2Proof.Machine

/-! ### The reset state (10_state.md R36; 70_reset_and_hazards.md R240, R243) -/

namespace Sys2Proof.Machine

theorem State.slot_of_lookup_none {s : State} {a : ArrayId} {i : Nat} (h : (s.array a).lookup i = none) :
    s.slot a i = Config.resetByte s.draw a i := by
  rw [State.slot, h, Option.getD_none]

@[simp] theorem State.array_resetWith (c : Config) (d : Nat) (a : ArrayId) :
    (State.resetWith c d).array a = [] := by
  cases a <;> rfl

theorem State.slot_resetWith (c : Config) (d : Nat) (a : ArrayId) (i : Nat) :
    (State.resetWith c d).slot a i = Config.resetByte d a i :=
  State.slot_of_lookup_none (by simp)

theorem State.registersReset_resetWith (c : Config) (d : Nat) : (State.resetWith c d).registersReset :=
  ⟨rfl, rfl, rfl, rfl, rfl, rfl, rfl, rfl, rfl, rfl, rfl⟩

/-- INIT does not write `c_op` and `c_send`; the others it writes (R196). -/
theorem State.registersReset_initRegisters {s : State} (hc : s.cOp = .none) (hs : s.cSend = none) :
    s.initRegisters.registersReset :=
  ⟨rfl, rfl, rfl, rfl, rfl, rfl, rfl, rfl, rfl, hc, hs⟩

/-- Settles O51: INIT is enabled on a free port only, and there the invariant's bookkeeping says that no
frame is with the Sink, so the two registers that INIT keeps are at their reset values already. -/
theorem resetIsReachedAtPowerOnAndByInit : Obligations.ResetIsReachedAtPowerOnAndByInit := by
  refine ⟨fun c d => ⟨State.registersReset_resetWith c d, State.slot_resetWith c d⟩, fun s h hc => ?_⟩
  obtain ⟨hsend, -⟩ := h.port.nothing_sent (by simp [hc])
  exact ⟨s.initRegisters, exec_init_of_free ⟨h.legal, hc⟩, State.registersReset_initRegisters hc hsend⟩

end Sys2Proof.Machine
